-- ==== Sys2Proof/Word.lean ====
section
/-! DEFINITION. The machine's one width. Every datum it moves is a byte: registers, memory cells, immediates,
addresses and return addresses (20_memory.md R33, 00_scope.md R5 and R8). Arithmetic on a byte is modulo 256, which is
`BitVec` arithmetic: `a +8 b` is `a + b`, `a -8 b` is `a - b`, `a *8 b` is `a * b` (R8). -/

namespace Sys2Proof

/-- An unsigned 8-bit value (R5 `XLEN`, R8). -/
abbrev Byte := BitVec 8

/-- A memory address or a program-counter value: 8 bits (R5 `ADDR_WIDTH`, R16, R37). -/
abbrev Addr := BitVec 8

/-- An index of the register file: 3 bits wide, 0 to 7 (10_state.md R14). -/
abbrev RegIx := Fin 8

end Sys2Proof
end

