-- ==== Sys2Proof/Config.lean ====
section
/-! DEFINITION. What an implementation fixes: the sizes and reset values of 00_scope.md R5 that a definition uses, and the
types of the parameters of R6. The values the spec chooses for the parameters stand in Decode.lean (`opcodes`) and in
Machine/Params.lean (`Params.default`). The spec leaves no value free, so this file declares no free value. -/

namespace Sys2Proof

/-- `MEM_SIZE`: the number of memory cells (R5). -/
def memSize : Nat := 256

/-- `SP_INDEX`: the register that is the stack pointer (R5, 10_state.md R12). -/
def spIndex : RegIx := 7

/-- `SP_RESET` (R5, R25). -/
def spReset : Byte := 0xF4

/-- `PC_RESET` (R5, R25). -/
def pcReset : Addr := 0x00

/-- The parameters `OPC_*` of R6: the opcode byte of each instruction, in the order of 30_encoding.md R54. -/
structure OpcodeTable where
  halt          : Byte
  loadImmediate : Byte
  print         : Byte
  multiply      : Byte
  add           : Byte
  push          : Byte
  pop           : Byte
  call          : Byte
  ret           : Byte
  deriving DecidableEq, Repr

/-- The parameter `INVALID_OPCODE_POLICY` of R6: `fault` raises `InvalidOpcode`, `spin` changes nothing and repeats
(40_core_cycle.md R81). -/
inductive InvalidOpcodePolicy where
  | fault
  | spin
  deriving DecidableEq, Repr

/-- The parameter `REG_INDEX_POLICY` of R6: `fault` raises `RegisterIndex`, `mask3` uses operand bits 2:0
(10_state.md R15). -/
inductive RegIndexPolicy where
  | fault
  | mask3
  deriving DecidableEq, Repr

end Sys2Proof
end

