-- ==== Sys2Proof/Syntax.lean ====
section
/-! DEFINITION. The nine instructions (00_scope.md R2, 30_encoding.md R54), with their operand bytes as the fetch unit
reads them (R53). A register operand is kept as its whole byte: 0 to 7 names a register, and 8 to 255 is an instruction
too, one that raises `RegisterIndex` (10_state.md R15). -/

namespace Sys2Proof

/-- An instruction: one constructor per row of the opcode table. `a` and `b` are operand bytes (R53). -/
inductive Instr where
  /-- HALT (R100). -/
  | halt
  /-- LOAD_IMMEDIATE a, v: register operand `a`, immediate `v` (R105). -/
  | loadImmediate (a v : Byte)
  /-- PRINT a (R106). -/
  | print (a : Byte)
  /-- MULTIPLY a, b (R122). -/
  | multiply (a b : Byte)
  /-- ADD a, b (R123). -/
  | add (a b : Byte)
  /-- PUSH a (R134). -/
  | push (a : Byte)
  /-- POP a (R135). -/
  | pop (a : Byte)
  /-- CALL a (R145). -/
  | call (a : Byte)
  /-- RETURN (R146). -/
  | ret
  deriving DecidableEq, Repr

end Sys2Proof
end

