-- ==== Sys2Proof/WellFormed.lean ====
section
/-! DEFINITION. Which instructions are well formed: every register operand names a register, that is, is 0 to 7
(30_encoding.md R53, 10_state.md R15). An ill-formed instruction still decodes and still has its meaning: it raises
`RegisterIndex`. -/

namespace Sys2Proof

/-- A register operand byte in the legal range 0 to 7 (R53). -/
def isRegIndex (v : Byte) : Bool := decide (v.toNat < 8)

/-- The register operands of an instruction, in the order they are checked (R53, R167). The immediate of
LOAD_IMMEDIATE is none of them. -/
def Instr.regOperands (i : Instr) : List Byte :=
  match i with
  | .halt => []
  | .loadImmediate a _ => [a]
  | .print a => [a]
  | .multiply a b => [a, b]
  | .add a b => [a, b]
  | .push a => [a]
  | .pop a => [a]
  | .call a => [a]
  | .ret => []

/-- Every register operand is in range. -/
def Instr.wellFormed (i : Instr) : Bool := i.regOperands.all isRegIndex

end Sys2Proof
end

