-- ==== Sys2Proof/Decode.lean ====
section
/-! DEFINITION. The `decoder` block (40_core_cycle.md R77, R78) and the encoder, both written from the table of
30_encoding.md R54. Decoding is total on any bytes and rejects by name; an instruction is found by a match on the whole
opcode byte (R51), and its length and advance mode come from bits 7:6 and bit 4 (R52). -/

namespace Sys2Proof

/-! ### Bit fields of the opcode byte (R51, R77), computed for every byte, valid or not -/

/-- `nops = ir[7:6]`: the number of operand bytes (R51, R77). -/
def nops (ir : Byte) : BitVec 2 := ir.extractLsb' 6 2

/-- `ilen = nops + 1`: the instruction length in bytes, the document's `operandCount` (R9, R52, R77). -/
def ilen (ir : Byte) : BitVec 3 := (nops ir).zeroExtend 3 + 1

/-- `selfadv = ir[4]`: the handler sets `pc` itself (R51, R77). -/
def selfadv (ir : Byte) : Bool := ir.getLsbD 4

/-! ### The dispatch table (R54, R78) -/

/-- The decoder's `handler` output: one of nine (R70, R78). -/
inductive Handler where
  | halt | loadImmediate | print | multiply | add | push | pop | call | ret
  deriving DecidableEq, Repr

/-- The opcode values the spec chooses, the defaults of `OPC_*` (R54, decision D1). UNVERIFIED: the source document gives
none (log entry 1). -/
def opcodes : OpcodeTable where
  halt := 0x01
  loadImmediate := 0x82
  print := 0x47
  multiply := 0xA2
  add := 0xA0
  push := 0x45
  pop := 0x46
  call := 0x50
  ret := 0x11

/-- The dispatch table: opcode byte and handler, in the order of R54. -/
def OpcodeTable.rows (t : OpcodeTable) : List (Byte × Handler) :=
  [(t.halt, .halt), (t.loadImmediate, .loadImmediate), (t.print, .print), (t.multiply, .multiply), (t.add, .add),
   (t.push, .push), (t.pop, .pop), (t.call, .call), (t.ret, .ret)]

/-- The number of operand bytes of an instruction, the "Operands" column (R54, R55 item 2). -/
def Handler.operandCount (h : Handler) : Nat :=
  match h with
  | .halt => 0
  | .loadImmediate => 2
  | .print => 1
  | .multiply => 2
  | .add => 2
  | .push => 1
  | .pop => 1
  | .call => 1
  | .ret => 0

/-- CALL and RETURN are the only self-advancing instructions (R55 item 3). -/
def Handler.selfAdvancing (h : Handler) : Bool :=
  match h with
  | .call => true
  | .ret => true
  | .halt => false
  | .loadImmediate => false
  | .print => false
  | .multiply => false
  | .add => false
  | .push => false
  | .pop => false

/-- A table row whose bit fields say what R55 items 2 and 3 ask of it. -/
def rowFits (r : Byte × Handler) : Bool :=
  (nops r.1).toNat == r.2.operandCount && selfadv r.1 == r.2.selfAdvancing

/-- The constraints any choice of the nine opcode values must meet (R55, decision D22): distinct bytes, bits 7:6 the
operand count, bit 4 set for CALL and RETURN alone. -/
def OpcodeTable.valid (t : OpcodeTable) : Bool :=
  decide ((t.rows.map Prod.fst).Nodup) && t.rows.all rowFits

/-- The handler whose opcode equals `ir`, if there is one (R78). -/
def handlerOf (t : OpcodeTable) (ir : Byte) : Option Handler :=
  (t.rows.find? (fun r => r.1 == ir)).map Prod.snd

/-- All the decoder's outputs for a byte (R57, R70): the bit fields and the handler, `none` for an invalid opcode. -/
structure DecoderOutputs where
  nops    : BitVec 2
  ilen    : BitVec 3
  selfadv : Bool
  handler : Option Handler
  deriving DecidableEq, Repr

/-- The decoder: total on any byte, and reading no state (R57, R78). -/
def decoder (t : OpcodeTable) (ir : Byte) : DecoderOutputs where
  nops := nops ir
  ilen := ilen ir
  selfadv := selfadv ir
  handler := handlerOf t ir

/-! ### From fetched bytes to an instruction -/

/-- Why bytes are no instruction. -/
inductive DecodeError where
  /-- The opcode byte is not in the dispatch table (R56, R81). -/
  | invalidOpcode (ir : Byte)
  deriving DecidableEq, Repr

/-- The instruction a handler carries out on the operand bytes `opa` and `opb` (R53); bytes beyond `nops` are ignored
(R76). -/
def Handler.instr (h : Handler) (opa opb : Byte) : Instr :=
  match h with
  | .halt => .halt
  | .loadImmediate => .loadImmediate opa opb
  | .print => .print opa
  | .multiply => .multiply opa opb
  | .add => .add opa opb
  | .push => .push opa
  | .pop => .pop opa
  | .call => .call opa
  | .ret => .ret

/-- Decoding of the three fetched bytes (R75, R78). -/
def decode (t : OpcodeTable) (ir opa opb : Byte) : Except DecodeError Instr :=
  match (decoder t ir).handler with
  | some h => .ok (h.instr opa opb)
  | none => .error (.invalidOpcode ir)

/-- Decoding of the bytes from some address on; a byte past the end of the list counts as 0x00, as a cell beyond the
image does (20_memory.md R46). -/
def decodeBytes (t : OpcodeTable) (bytes : List Byte) : Except DecodeError Instr :=
  decode t (bytes.getD 0 0) (bytes.getD 1 0) (bytes.getD 2 0)

/-! ### The encoder (R50, R54) -/

/-- The handler that carries out an instruction. -/
def Instr.handler (i : Instr) : Handler :=
  match i with
  | .halt => .halt
  | .loadImmediate _ _ => .loadImmediate
  | .print _ => .print
  | .multiply _ _ => .multiply
  | .add _ _ => .add
  | .push _ => .push
  | .pop _ => .pop
  | .call _ => .call
  | .ret => .ret

/-- The opcode byte of a handler under a table (R54). -/
def OpcodeTable.byteOf (t : OpcodeTable) (h : Handler) : Byte :=
  match h with
  | .halt => t.halt
  | .loadImmediate => t.loadImmediate
  | .print => t.print
  | .multiply => t.multiply
  | .add => t.add
  | .push => t.push
  | .pop => t.pop
  | .call => t.call
  | .ret => t.ret

/-- The operand bytes of an instruction, operand `a` first (R50, R53). -/
def Instr.operandBytes (i : Instr) : List Byte :=
  match i with
  | .halt => []
  | .loadImmediate a v => [a, v]
  | .print a => [a]
  | .multiply a b => [a, b]
  | .add a b => [a, b]
  | .push a => [a]
  | .pop a => [a]
  | .call a => [a]
  | .ret => []

/-- The bytes of an instruction in address order, opcode first (R50). -/
def encode (t : OpcodeTable) (i : Instr) : List Byte :=
  t.byteOf i.handler :: i.operandBytes

/-- The opcode byte of an instruction under the spec's table, from which `pc_logic` derives the advance. DEDUCED: every
table that meets R55 gives the same length and advance mode, so the default serves for all of them (log entry 10). -/
def Instr.opcodeByte (i : Instr) : Byte := opcodes.byteOf i.handler

/-! ### Words numbered as spec/opcode_table.json numbers them -/

/-- Byte `k` of the word `w` of `nbits` bits: bits `8k+7` to `8k`, and 0 above `nbits`. -/
def tableByte (nbits w k : Nat) : Byte := BitVec.ofNat 8 ((w % 2 ^ nbits) / 2 ^ (8 * k))

/-- The three bytes of a table word in address order, the first byte the least significant. -/
def tableBytes (nbits w : Nat) : List Byte := [tableByte nbits w 0, tableByte nbits w 1, tableByte nbits w 2]

/-- The instruction the decoder reads from a table word. -/
def decodeTableWord (nbits w : Nat) : Option Instr :=
  match decodeBytes opcodes (tableBytes nbits w) with
  | .ok i => some i
  | .error _ => none

end Sys2Proof
end

