-- ==== Sys2Proof/Machine/State.lean ====
section
/-! DEFINITION. The complete state of the machine, the tuple of 10_state.md R10, and its value after reset (R25). The
temporaries `ir`, `opa`, `opb` and the decoder's outputs do not survive a step and are no state (R24). -/

namespace Sys2Proof.Machine

/-- The memory cells that differ from their reset contents, as (address, byte) pairs with strictly rising addresses; an
unlisted address holds 0x00 (20_memory.md R30, R31). Its canonical form is `Memory.wf` in Machine/Ops.lean. -/
abbrev Memory := List Host.Cell

/-- The control state `ctl` (10_state.md R19, R20). -/
inductive Ctl where
  /-- Running flag true. -/
  | running
  /-- Running flag false after a HALT: the normal end of a run. -/
  | halted
  /-- Entered by a fatal condition, left only by reset. -/
  | faulted
  deriving DecidableEq, Repr

/-- The whole state (10_state.md R10). -/
structure State where
  /-- Memory, 256 cells of 8 bits (20_memory.md R30). -/
  mem    : Memory
  /-- General registers `R0` to `R7`; `x[7]` is SP (R11, R12). -/
  x      : Vector Byte 8
  /-- Program counter: the address of the current instruction's opcode byte (R16). -/
  pc     : Addr
  /-- Control state (R19, R20). -/
  ctl    : Ctl
  /-- Cause of a fatal condition: 0 none, 1 `InvalidOpcode`, 2 `RegisterIndex`, 3 `UnsupportedOperation` (R20). -/
  fcause : BitVec 2
  /-- Information of a fatal condition (R20). -/
  finfo  : Byte
  /-- The bytes emitted by PRINT so far, oldest first (R22). -/
  out    : List Byte
  deriving DecidableEq, Repr

/-- Why a definition of the machine stops without a next state. No step of the machine does: a fatal condition is a next
state (60_exceptions.md R168). -/
inductive Fault where
  /-- Raised by `boot` (Machine/Boot.lean) when the image has more than 256 bytes, which reset requires it not to have
  (20_memory.md R44, R185). Safe: the machine does not start. -/
  | imageTooLong
  deriving DecidableEq, Repr

/-- Why an instruction has no meaning. -/
inductive Refusal where
  /-- Raised by an arm of `exec` that has no meaning yet, with the instruction's mnemonic; no arm does. Safe. -/
  | notModelled (mnemonic : String)
  deriving DecidableEq, Repr

/-- The machine right after reset, with an empty image (10_state.md R25, 70_reset_and_hazards.md R185). `x[0]` to `x[6]`
are 0x00 by the spec's decision D6 (log entry 6). -/
def State.reset : State where
  mem := []
  x := #v[0x00, 0x00, 0x00, 0x00, 0x00, 0x00, 0x00, spReset]
  pc := pcReset
  ctl := .running
  fcause := 0
  finfo := 0x00
  out := []

end Sys2Proof.Machine
end

