-- ==== Sys2Proof/Machine/Ops.lean ====
section
/-! DEFINITION. The named operations over memory, registers, stack pointer, program counter, output and control state:
the blocks `register_file`, `stack_pointer_management`, `pc_logic` and the control part of `control_loop`
(40_core_cycle.md R70), and the fatal-condition entry (60_exceptions.md R168). Every read and write of the state goes
through them. -/

namespace Sys2Proof.Machine

/-! ### Memory as a list of cells -/

/-- What an address that is not listed reads as: the reset contents (10_state.md R25, "zero-initialized at startup"). -/
def unlistedByte : Byte := 0x00

/-- The byte at key `k`: the first entry with that key, or `unlistedByte`. -/
def Memory.get (m : Memory) (k : Nat) : Byte :=
  match m with
  | [] => unlistedByte
  | c :: rest => if c.1 = k then c.2 else Memory.get rest k

/-- The cells without any entry for key `k`. -/
def Memory.erase (m : Memory) (k : Nat) : Memory :=
  m.filter (fun c => c.1 != k)

/-- The cells with `(k, v)` placed before the first larger key. -/
def Memory.insert (m : Memory) (k : Nat) (v : Byte) : Memory :=
  match m with
  | [] => [(k, v)]
  | c :: rest => if k < c.1 then (k, v) :: c :: rest else c :: Memory.insert rest k v

/-- The cells after cell `k` becomes `v`; writing what an unlisted address reads as removes the entry. -/
def Memory.set (m : Memory) (k : Nat) (v : Byte) : Memory :=
  if v = unlistedByte then m.erase k else (m.erase k).insert k v

/-- The byte in memory cell `a` (20_memory.md R31). -/
def Memory.read (m : Memory) (a : Addr) : Byte := m.get a.toNat

/-- Memory after cell `a` becomes `v`; no other cell changes (20_memory.md R31). -/
def Memory.write (m : Memory) (a : Addr) (v : Byte) : Memory := m.set a.toNat v

/-- The canonical form: addresses strictly rising and inside memory, and no entry equal to what an unlisted address
reads as. -/
def Memory.wf (m : Memory) : Bool :=
  decide (m.Pairwise (fun c d => c.1 < d.1)) && m.all (fun c => decide (c.1 < memSize) && c.2 != unlistedByte)

/-- `MemRead(addr, 1)` (00_scope.md R8, R31). -/
def memRead (a : Addr) (s : State) : Byte := s.mem.read a

/-- `MemWrite(addr, 1, v)` (00_scope.md R8, R31). -/
def memWrite (a : Addr) (v : Byte) (s : State) : State := { s with mem := s.mem.write a v }

/-- Bytes written one after the other from address `a` on, addresses modulo 256 (R37). -/
def memWriteList (a : Addr) (bytes : List Byte) (s : State) : State :=
  match bytes with
  | [] => s
  | b :: rest => memWriteList (a + 1) rest (memWrite a b s)

/-! ### register_file (10_state.md R14) -/

/-- `rf_read(i)`: returns `x[i]`; no side effect. -/
def rfRead (i : RegIx) (s : State) : Byte := s.x[i.val]

/-- `rf_write(i, v)`: `x[i] <- v`; no other cell changes. -/
def rfWrite (i : RegIx) (v : Byte) (s : State) : State := { s with x := s.x.set i.val v i.isLt }

/-! ### stack_pointer_management (44_stack.md R130) -/

/-- The stack pointer, `x[7]` (R12). -/
def sp (s : State) : Byte := rfRead spIndex s

/-- `x[7] <- x[7] -8 1`, the first statement of `push_byte`. -/
def spDec (s : State) : State := rfWrite spIndex (sp s - 1) s

/-- `x[7] <- x[7] +8 1`, the second statement of `pop_byte`. -/
def spInc (s : State) : State := rfWrite spIndex (sp s + 1) s

/-- `MemWrite(x[7], 1, v)`, the second statement of `push_byte`. -/
def storeTop (v : Byte) (s : State) : State := memWrite (sp s) v s

/-- `MemRead(x[7], 1)`, the first statement of `pop_byte`. -/
def loadTop (s : State) : Byte := memRead (sp s) s

/-- `push_byte(v)`: the address written is the new stack pointer (R130). -/
def pushByte (v : Byte) (s : State) : State := storeTop v (spDec s)

/-- `pop_byte() -> v`: the address read is the old stack pointer (R130). -/
def popByte (s : State) : Byte × State := (loadTop s, spInc s)

/-! ### pc_logic (40_core_cycle.md R79) -/

/-- The address after the instruction at `pc` whose opcode byte is `ir`: `pc +8 ilen` (R79, R145). -/
def nextPc (ir : Byte) (s : State) : Addr := s.pc + (ilen ir).zeroExtend 8

/-- `pc <- target`. -/
def setPc (target : Addr) (s : State) : State := { s with pc := target }

/-- The loop's advance: by `ilen` unless the instruction is self-advancing, whose handler has written `pc` (R79). -/
def pcLogic (ir : Byte) (s : State) : State :=
  if selfadv ir then s else setPc (nextPc ir s) s

/-! ### Output and control state -/

/-- `Emit(v)`: append to the output stream (00_scope.md R8, 10_state.md R22). -/
def emit (v : Byte) (s : State) : State := { s with out := s.out ++ [v] }

/-- `ctl <- Halted`, the effect of HALT (41_halt.md R100). -/
def setHalted (s : State) : State := { s with ctl := .halted }

/-- The three fatal conditions (60_exceptions.md R160). -/
inductive Condition where
  | invalidOpcode
  | registerIndex
  | unsupportedOperation
  deriving DecidableEq, Repr

/-- The code a condition leaves in `fcause` (R160). -/
def conditionCode (c : Condition) : BitVec 2 :=
  match c with
  | .invalidOpcode => 1
  | .registerIndex => 2
  | .unsupportedOperation => 3

/-- `raise C(info)`, the fatal-condition entry: `fcause`, `finfo` and `ctl` are written and nothing else changes
(60_exceptions.md R168). There is no return from it (R169). -/
def raise (c : Condition) (info : Byte) (s : State) : State :=
  { s with fcause := conditionCode c, finfo := info, ctl := .faulted }

/-- A condition raised inside a step, with its information byte. -/
structure Raised where
  condition : Condition
  info      : Byte
  deriving DecidableEq, Repr

/-- What a handler yields: the state after its statements, or the condition it raises. -/
abbrev Handled := Except Raised State

/-- The end of an instruction's step: `pc_logic` after a handler that finished (40_core_cycle.md R79), or the
fatal-condition entry on the state at the START of the step, nothing before a `raise` having changed it
(R82, 60_exceptions.md R168). -/
def finish (i : Instr) (s : State) (h : Handled) : Host.Outcome State Fault Refusal :=
  match h with
  | .ok t => .next (pcLogic i.opcodeByte t)
  | .error r => .next (raise r.condition r.info s)

end Sys2Proof.Machine
end

