-- ==== Sys2Proof/Machine/Operands.lean ====
section
/-! DEFINITION. Operand forms. There are two kinds (30_encoding.md R53): the immediate, which is the byte itself and needs
no definition, and the register index, a whole byte whose legal values are 0 to 7. There are no addressing modes. -/

namespace Sys2Proof.Machine

/-- The register-index check (10_state.md R15): go on with the register an operand byte names, or raise
`RegisterIndex` with that byte, before anything has changed. -/
def withReg (v : Byte) (k : RegIx → Handled) : Handled :=
  if h : v.toNat < 8 then k ⟨v.toNat, h⟩ else .error ⟨.registerIndex, v⟩

/-- The check of both operands of MULTIPLY and ADD, operand `a` first (60_exceptions.md R163, R167). -/
def withRegs (a b : Byte) (k : RegIx → RegIx → Handled) : Handled :=
  withReg a (fun ra => withReg b (fun rb => k ra rb))

/-- An operand byte under `REG_INDEX_POLICY = mask3`: bits 2:0 (10_state.md R15). -/
def mask3 (v : Byte) : Byte := v &&& 0x07

/-- An operand byte as a policy lets the instruction see it. DEDUCED: under `mask3` every register operand is replaced by
its bits 2:0 before the instruction runs, so that no `RegisterIndex` is raised (R15, log entry 11). -/
def policyOperand (p : RegIndexPolicy) (v : Byte) : Byte :=
  match p with
  | .fault => v
  | .mask3 => mask3 v

/-- An instruction with the policy applied to its register operands and not to the immediate (R15, R53). -/
def policyInstr (p : RegIndexPolicy) (i : Instr) : Instr :=
  match i with
  | .halt => .halt
  | .loadImmediate a v => .loadImmediate (policyOperand p a) v
  | .print a => .print (policyOperand p a)
  | .multiply a b => .multiply (policyOperand p a) (policyOperand p b)
  | .add a b => .add (policyOperand p a) (policyOperand p b)
  | .push a => .push (policyOperand p a)
  | .pop a => .pop (policyOperand p a)
  | .call a => .call (policyOperand p a)
  | .ret => .ret

end Sys2Proof.Machine
end

