-- ==== Sys2Proof/Machine/Flags.lean ====
section
/-! DEFINITION. The machine has no status flags, condition codes or predicates (10_state.md R23): there is no flag
computation to write. What this file holds is the arithmetic of the `alu` block (43_alu.md R115 to R121), which discards
the carry of a sum and the high byte of a product. -/

namespace Sys2Proof.Machine

/-- The `alu_op` input, as the four-constructor enumeration that 43_alu.md R120 allows. -/
inductive AluOp where
  | add
  | sub
  | mul
  /-- The one value outside ADD, SUB and MUL (R119, R120). -/
  | unsupported
  deriving DecidableEq, Repr

/-- The 2-bit code of an ALU operation (R120). -/
def aluCode (op : AluOp) : BitVec 2 :=
  match op with
  | .add => 0
  | .sub => 1
  | .mul => 2
  | .unsupported => 3

/-- `alu(op, xv, yv)`: an 8-bit result, or none for an unsupported operation (R115 to R119). It reads no state. -/
def alu (op : AluOp) (xv yv : Byte) : Option Byte :=
  match op with
  | .add => some (xv + yv)
  | .sub => some (xv - yv)
  | .mul => some (xv * yv)
  | .unsupported => none

/-- `apply(op, a, b)`: both registers are read, then the result goes to the first (R115); an unsupported operation
writes nothing and raises `UnsupportedOperation` with the operation's code (R119, 60_exceptions.md R162). -/
def aluApply (op : AluOp) (a b : RegIx) (s : State) : Handled :=
  match alu op (rfRead a s) (rfRead b s) with
  | some r => .ok (rfWrite a r s)
  | none => .error ⟨.unsupportedOperation, (aluCode op).zeroExtend 8⟩

end Sys2Proof.Machine
end

