-- ==== Sys2Proof/Machine/Arith.lean ====
section
/-! DEFINITION. MULTIPLY and ADD, the instructions that use the `alu` block (43_alu.md R122, R123, R124). -/

namespace Sys2Proof.Machine

/-- MULTIPLY a, b: `apply(MUL, a, b)` (R122). -/
def execMultiply (a b : Byte) (s : State) : Host.Outcome State Fault Refusal :=
  finish (.multiply a b) s (withRegs a b fun ra rb => aluApply .mul ra rb s)

/-- ADD a, b: `apply(ADD, a, b)` (R123). -/
def execAdd (a b : Byte) (s : State) : Host.Outcome State Fault Refusal :=
  finish (.add a b) s (withRegs a b fun ra rb => aluApply .add ra rb s)

end Sys2Proof.Machine
end

