-- ==== Sys2Proof/Machine/CallReturn.lean ====
section
/-! DEFINITION. CALL and RETURN, the self-advancing instructions (45_call_return.md R145, R146). -/

namespace Sys2Proof.Machine

/-- CALL a: push `pc +8 ilen`, then `pc <- x[a]` with `x[a]` read after the decrement of `x[7]` (R145, R148). -/
def execCall (a : Byte) (s : State) : Host.Outcome State Fault Refusal :=
  finish (.call a) s (withReg a fun ra =>
    let pushed := pushByte (nextPc (Instr.call a).opcodeByte s) s
    .ok (setPc (rfRead ra pushed) pushed))

/-- RETURN: `pc <- MemRead(x[7], 1)`, then `x[7] <- x[7] +8 1` (R146). -/
def execRet (s : State) : Host.Outcome State Fault Refusal :=
  finish .ret s (.ok (spInc (setPc (loadTop s) s)))

end Sys2Proof.Machine
end

