-- ==== Sys2Proof/Machine/LoadPrint.lean ====
section
/-! DEFINITION. LOAD_IMMEDIATE and PRINT (42_load_print.md R105, R106). -/

namespace Sys2Proof.Machine

/-- LOAD_IMMEDIATE a, v: `x[a] <- v` (R105). -/
def execLoadImmediate (a v : Byte) (s : State) : Host.Outcome State Fault Refusal :=
  finish (.loadImmediate a v) s (withReg a fun ra => .ok (rfWrite ra v s))

/-- PRINT a: `Emit(x[a])` (R106). -/
def execPrint (a : Byte) (s : State) : Host.Outcome State Fault Refusal :=
  finish (.print a) s (withReg a fun ra => .ok (emit (rfRead ra s) s))

end Sys2Proof.Machine
end

