-- ==== Sys2Proof/Machine/Stack.lean ====
section
/-! DEFINITION. PUSH and POP (44_stack.md R134, R135). The statements of each take effect one after the other, each seeing
the writes before it (R136, decision D9), which matters when the operand is register 7. -/

namespace Sys2Proof.Machine

/-- PUSH a: `x[7] <- x[7] -8 1`, then `MemWrite(x[7], 1, x[a])` with `x[a]` read after the decrement (R134). -/
def execPush (a : Byte) (s : State) : Host.Outcome State Fault Refusal :=
  finish (.push a) s (withReg a fun ra => .ok (pushByte (rfRead ra (spDec s)) s))

/-- POP a: `x[a] <- MemRead(x[7], 1)`, then `x[7] <- x[7] +8 1` with `x[7]` read after the write of `x[a]` (R135). -/
def execPop (a : Byte) (s : State) : Host.Outcome State Fault Refusal :=
  finish (.pop a) s (withReg a fun ra => .ok (spInc (rfWrite ra (loadTop s) s)))

end Sys2Proof.Machine
end

