-- ==== Sys2Proof/Machine/System.lean ====
section
/-! DEFINITION. HALT, the only system instruction (41_halt.md R100, R101). -/

namespace Sys2Proof.Machine

/-- HALT: `ctl <- Halted`; the loop still advances `pc` by 1 (R100, 40_core_cycle.md R80). -/
def execHalt (s : State) : Host.Outcome State Fault Refusal :=
  finish .halt s (.ok (setHalted s))

end Sys2Proof.Machine
end

