-- ==== Sys2Proof/Machine/Dispatch.lean ====
section
/-! DEFINITION. The dispatch: one arm per instruction, each one call of its meaning (40_core_cycle.md R82, R85). -/

namespace Sys2Proof.Machine

/-- What an instruction does to the state it starts from, its `pc` advance included. Whether a step is taken at all is
the control loop's matter (`cycle`, R72), so `exec` does not look at `ctl`. DESIGN CHOICE: log entry 13. -/
def exec (i : Instr) (s : State) : Host.Outcome State Fault Refusal :=
  match i with
  | .halt => Sys2Proof.Machine.execHalt s
  | .loadImmediate a v => Sys2Proof.Machine.execLoadImmediate a v s
  | .print a => Sys2Proof.Machine.execPrint a s
  | .multiply a b => Sys2Proof.Machine.execMultiply a b s
  | .add a b => Sys2Proof.Machine.execAdd a b s
  | .push a => Sys2Proof.Machine.execPush a s
  | .pop a => Sys2Proof.Machine.execPop a s
  | .call a => Sys2Proof.Machine.execCall a s
  | .ret => Sys2Proof.Machine.execRet s

end Sys2Proof.Machine
end

