-- ==== Sys2Proof/Machine/Params.lean ====
section
/-! DEFINITION. The parameters of 00_scope.md R6 as one record, with the spec's choice for each as the default. The image
is an argument of `boot` (Machine/Boot.lean). -/

namespace Sys2Proof.Machine

/-- The named parameters a model takes as arguments (R6). A table that violates 30_encoding.md R55 is refused by the field
`opcodes_valid`: no `Params` can hold it (decision D22). -/
structure Params where
  /-- `OPC_*` (D1). -/
  opcodes       : OpcodeTable
  /-- The check of R55. -/
  opcodes_valid : opcodes.valid = true
  /-- `INVALID_OPCODE_POLICY` (D4). -/
  invalidOpcode : InvalidOpcodePolicy
  /-- `REG_INDEX_POLICY` (D5). -/
  regIndex      : RegIndexPolicy
  /-- `REG_RESET[0..6]` (D6). -/
  regReset      : Vector Byte 7

/-- The spec's choice for every parameter (R6). -/
def defaultParams : Params where
  opcodes := Sys2Proof.opcodes
  opcodes_valid := by decide
  invalidOpcode := .fault
  regIndex := .fault
  regReset := #v[0x00, 0x00, 0x00, 0x00, 0x00, 0x00, 0x00]

end Sys2Proof.Machine
end

