-- ==== Sys2Proof/Machine/Cycle.lean ====
section
/-! DEFINITION. One pass of the execution loop: the blocks `fetch_unit` and `control_loop` around decode and dispatch
(40_core_cycle.md R71 to R83), for any parameters of 00_scope.md R6. -/

namespace Sys2Proof.Machine

/-- The three bytes the fetch unit reads; temporaries of one step (R24, R75). -/
structure Fetched where
  ir  : Byte
  opa : Byte
  opb : Byte
  deriving DecidableEq, Repr

/-- `fetch_unit`: three reads, whatever the opcode is; no state changes (R75, R76). -/
def fetch (s : State) : Fetched where
  ir := memRead s.pc s
  opa := memRead (s.pc + 1) s
  opb := memRead (s.pc + 2) s

/-- What a step does on an invalid opcode: raise `InvalidOpcode(ir)`, or change nothing (R81, 60_exceptions.md R161). -/
def onInvalidOpcode (p : InvalidOpcodePolicy) (ir : Byte) (s : State) : State :=
  match p with
  | .fault => raise .invalidOpcode ir s
  | .spin => s

/-- Decode and dispatch of the fetched bytes (R82, R83). -/
def dispatch (p : Params) (f : Fetched) (s : State) : Host.Outcome State Fault Refusal :=
  match decode p.opcodes f.ir f.opa f.opb with
  | .ok i => exec (policyInstr p.regIndex i) s
  | .error (.invalidOpcode ir) => .next (onInvalidOpcode p.invalidOpcode ir s)

/-- `control_loop`: a step is taken if and only if `ctl = Running`; otherwise all state is held (R72, R74).
DESIGN CHOICE: holding the state is written as a next state equal to the present one (log entry 9). -/
def cycle (p : Params) (s : State) : Host.Outcome State Fault Refusal :=
  match s.ctl with
  | .running => dispatch p (fetch s) s
  | .halted => .next s
  | .faulted => .next s

/-- The bytes stored at `pc`, and `ctl` set to `Running` so that the next step fetches (log entry 14). -/
def placeAtPc (bytes : List Byte) (s : State) : State :=
  memWriteList s.pc bytes { s with ctl := .running }

end Sys2Proof.Machine
end

