-- ==== Sys2Proof/Machine/Step.lean ====
section
/-! DEFINITION. The machine's step, with the spec's choice for every parameter, and where a test word is placed. -/

namespace Sys2Proof.Machine

/-- One step of the machine (40_core_cycle.md R82) under the default parameters of 00_scope.md R6. -/
def step (s : State) : Host.Outcome State Fault Refusal := cycle defaultParams s

/-- `s` with the instruction of a table word stored where `step` fetches next. -/
def State.withFetchWord (s : State) (nbits w : Nat) : State := placeAtPc (tableBytes nbits w) s

end Sys2Proof.Machine
end

