-- ==== Sys2Proof/Machine/Boot.lean ====
section
/-! DEFINITION. Reset with a program image: the only reset there is (70_reset_and_hazards.md R185, R186). -/

namespace Sys2Proof.Machine

/-- The registers after reset: `REG_RESET[0..6]` and SP (R25, R185). -/
def resetRegs (regReset : Vector Byte 7) : Vector Byte 8 := regReset.push spReset

/-- State before the loader runs, for given `REG_RESET` (10_state.md R25). -/
def resetState (p : Params) : State := { State.reset with x := resetRegs p.regReset }

/-- The loader: the image written sequentially into memory from address 0 (20_memory.md R44). -/
def loadImage (image : List Byte) (s : State) : State := memWriteList 0 image s

/-- `reset(IMAGE, REG_RESET)`: the launch state, or the refusal of an image longer than memory (R185, decision D15). -/
def boot (p : Params) (image : List Byte) : Host.Outcome State Fault Refusal :=
  if image.length ≤ memSize then .next (loadImage image (resetState p)) else .fault .imageTooLong

end Sys2Proof.Machine
end

