-- ==== Sys2Proof/Safety.lean ====
section
/-! DEFINITION. What claims about runs are stated in: how a run stands (70_reset_and_hazards.md R189) and the invariant that
every step keeps. A run is executed under fuel (40_core_cycle.md R73) by `Host.Core.run`. -/

namespace Sys2Proof.Machine

/-- The run has ended normally: `ctl = Halted` and nothing else (R189). -/
def endedNormally (s : State) : Bool := s.ctl == .halted

/-- The run has failed: `ctl = Faulted`; never a successful end (R169, R189). -/
def failed (s : State) : Bool := s.ctl == .faulted

/-- The run has not ended (R189). -/
def stillRunning (s : State) : Bool := s.ctl == .running

/-- The instruction at `pc`, as a step reads it (R75, R78). -/
def current (s : State) : Except DecodeError Instr :=
  decode opcodes (fetch s).ir (fetch s).opa (fetch s).opb

/-- The recorded cause and information are the ones the instruction at `pc` raises: its invalid opcode byte, or its first
register operand that is out of range. `pc` and memory have not changed since the condition was raised (R160, R167,
R168). -/
def faultExplained (s : State) : Bool :=
  match current s with
  | .error (.invalidOpcode ir) => s.fcause == 1 && s.finfo == ir
  | .ok i => s.fcause == 2 && i.regOperands.find? (fun v => !isRegIndex v) == some s.finfo

/-- What the control state says about the rest: no condition recorded while Running or Halted (R20), the byte before `pc`
the HALT opcode when Halted (R80), and an explained record when Faulted. -/
def controlOk (s : State) : Bool :=
  match s.ctl with
  | .running => s.fcause == 0 && s.finfo == 0
  | .halted => s.fcause == 0 && s.finfo == 0 && memRead (s.pc - 1) s == opcodes.halt
  | .faulted => faultExplained s

/-- The invariant: memory in canonical form, and the control state in order. -/
def State.inv (s : State) : Bool := s.mem.wf && controlOk s

/-! ### The step function of 40_core_cycle.md R82, transcribed line by line on raw bytes

It shares no decoder, handler or operand definition with `step`: only the state and the read and write of one memory
cell. A claim compares the two. -/

/-- `x[n]` for an operand value already checked to be 0 to 7. -/
def r82Reg (x : Vector Byte 8) (n : Byte) : Byte := (x[n.toNat]?).getD 0

/-- `x[n] <- v` for an operand value already checked to be 0 to 7. -/
def r82SetReg (x : Vector Byte 8) (n v : Byte) : Vector Byte 8 := x.setIfInBounds n.toNat v

/-- The `case handler of` part of R82, by opcode byte. -/
def r82Case (ir opa opb : Byte) (s : State) : State :=
  if ir = 0x01 then { s with ctl := .halted }
  else if ir = 0x82 then { s with x := r82SetReg s.x opa opb }
  else if ir = 0x47 then { s with out := s.out ++ [r82Reg s.x opa] }
  else if ir = 0xA2 then { s with x := r82SetReg s.x opa (r82Reg s.x opa * r82Reg s.x opb) }
  else if ir = 0xA0 then { s with x := r82SetReg s.x opa (r82Reg s.x opa + r82Reg s.x opb) }
  else if ir = 0x45 then
    let x1 := r82SetReg s.x 7 (r82Reg s.x 7 - 1)
    { s with x := x1, mem := s.mem.write (r82Reg x1 7) (r82Reg x1 opa) }
  else if ir = 0x46 then
    let x1 := r82SetReg s.x opa (s.mem.read (r82Reg s.x 7))
    { s with x := r82SetReg x1 7 (r82Reg x1 7 + 1) }
  else if ir = 0x50 then
    let x1 := r82SetReg s.x 7 (r82Reg s.x 7 - 1)
    { s with x := x1, mem := s.mem.write (r82Reg x1 7) (s.pc + 2), pc := r82Reg x1 opa }
  else if ir = 0x11 then
    { s with pc := s.mem.read (r82Reg s.x 7), x := r82SetReg s.x 7 (r82Reg s.x 7 + 1) }
  else s

/-- The whole transition of R82 for `ctl = Running`. -/
def r82Step (s : State) : State :=
  let ir := s.mem.read s.pc
  let opa := s.mem.read (s.pc + 1)
  let opb := s.mem.read (s.pc + 2)
  if ir ∉ ([0x01, 0x82, 0x47, 0xA2, 0xA0, 0x45, 0x46, 0x50, 0x11] : List Byte) then
    { s with fcause := 1, finfo := ir, ctl := .faulted }
  else if ir ∈ ([0x82, 0x47, 0xA2, 0xA0, 0x45, 0x46, 0x50] : List Byte) ∧ 8 ≤ opa.toNat then
    { s with fcause := 2, finfo := opa, ctl := .faulted }
  else if ir ∈ ([0xA2, 0xA0] : List Byte) ∧ 8 ≤ opb.toNat then
    { s with fcause := 2, finfo := opb, ctl := .faulted }
  else if ir.toNat / 16 % 2 = 0 then
    { r82Case ir opa opb s with pc := s.pc + BitVec.ofNat 8 (ir.toNat / 64 + 1) }
  else r82Case ir opa opb s

/-! ### Sequences of stack operations (44_stack.md R131) -/

/-- A stack operation: `some v` pushes `v`, `none` pops. -/
def stackOp (s : State) (op : Option Byte) : State :=
  match op with
  | some v => pushByte v s
  | none => (popByte s).2

/-- The state after a sequence of stack operations. -/
def stackOps (ops : List (Option Byte)) (s : State) : State := ops.foldl stackOp s

/-- The bytes of `n` pops, in the order they are popped. -/
def popped (n : Nat) (s : State) : List Byte :=
  match n with
  | 0 => []
  | k + 1 => (popByte s).1 :: popped k (popByte s).2

end Sys2Proof.Machine
end

