-- ==== Sys2Proof/Certificates/Slice0/Obligations.lean ====
section
/-! DEFINITION. The statements for the provers, each from the numbered rules of spec/. Where a statement rests on one of
the spec's own decisions (92_eei_decisions.md D<n>), a rule the spec marks as derived, or the model's own choice, its
docstring says so. -/

open Sys2Proof Sys2Proof.Machine

/-! ### Encoding -/

/-- One word of each instruction, written out from the encodings and worked examples of files 41 to 45 (opcode values:
the spec's decision D1), decodes to the instruction it stands for; 0xA1 is no instruction. -/
def Obligations.SampleWordsDecode : Prop :=
  decodeBytes opcodes [0b00000001] = .ok .halt ∧
  decodeBytes opcodes [0b10000010, 0x00, 0x08] = .ok (.loadImmediate 0x00 0x08) ∧
  decodeBytes opcodes [0b01000111, 0x03] = .ok (.print 0x03) ∧
  decodeBytes opcodes [0b10100010, 0x02, 0x05] = .ok (.multiply 0x02 0x05) ∧
  decodeBytes opcodes [0b10100000, 0x06, 0x01] = .ok (.add 0x06 0x01) ∧
  decodeBytes opcodes [0b01000101, 0x07] = .ok (.push 0x07) ∧
  decodeBytes opcodes [0b01000110, 0x01] = .ok (.pop 0x01) ∧
  decodeBytes opcodes [0b01010000, 0x04] = .ok (.call 0x04) ∧
  decodeBytes opcodes [0b00010001] = .ok .ret ∧
  decodeBytes opcodes [0b10100001, 0x00, 0x01] = .error (.invalidOpcode 0xA1)

/-- Decoding an encoded instruction gives it back, under every opcode table that meets R55, with every operand byte at
every value and whatever bytes follow. -/
def Obligations.DecodeOfEncode : Prop :=
  ∀ (t : OpcodeTable), t.valid = true → ∀ (i : Instr) (following : List Byte),
    decodeBytes t (encode t i ++ following) = .ok i

/-- The other direction: bytes that decode to an instruction begin with its encoding, under any table. -/
def Obligations.EncodeOfDecode : Prop :=
  ∀ (t : OpcodeTable) (ir opa opb : Byte) (i : Instr),
    decode t ir opa opb = .ok i → ∃ following, [ir, opa, opb] = encode t i ++ following

/-- R57: the decoder yields one of the nine handlers or the verdict invalid, with the bit fields computed in either case,
and validity depends on the opcode byte alone. -/
def Obligations.DecoderTotalOnEveryByte : Prop :=
  ∀ (t : OpcodeTable) (ir opa opb : Byte),
    ((∃ h, (decoder t ir).handler = some h ∧ ∃ i, decode t ir opa opb = .ok i ∧ i.handler = h) ∨
     ((decoder t ir).handler = none ∧ decode t ir opa opb = .error (.invalidOpcode ir))) ∧
    (decoder t ir).nops.toNat = ir.toNat / 64 ∧
    (decoder t ir).ilen.toNat = ir.toNat / 64 + 1 ∧
    ((decoder t ir).selfadv = true ↔ ir.toNat / 16 % 2 = 1) ∧
    ∀ opa' opb', (∃ i, decode t ir opa opb = .ok i) ↔ ∃ i, decode t ir opa' opb' = .ok i

/-- R77: the decoder outputs that depend on bit fields, for every byte, valid or not, and under every table; and what
they tell the loop: advance `pc` by `ilen`, or leave it to the handler. -/
def Obligations.DecoderBitFields : Prop :=
  ∀ (t : OpcodeTable) (ir : Byte),
    (decoder t ir).nops.toNat = ir.toNat / 64 ∧
    (decoder t ir).ilen.toNat = (decoder t ir).nops.toNat + 1 ∧
    ((decoder t ir).selfadv = true ↔ ir.toNat / 16 % 2 = 1) ∧
    ∀ s : State,
      ((decoder t ir).selfadv = true → pcLogic ir s = s) ∧
      ((decoder t ir).selfadv = false →
        pcLogic ir s = { s with pc := s.pc + BitVec.ofNat 8 (decoder t ir).ilen.toNat })

/-- The handler is the instruction whose opcode equals the byte, on all eight bits, under every table that meets R55; and
the decoder's outputs for the nine opcodes of the spec's own table (decision D1). -/
def Obligations.HandlerByWholeByteMatch : Prop :=
  (∀ (t : OpcodeTable), t.valid = true → ∀ (ir : Byte) (h : Handler),
    (decoder t ir).handler = some h ↔ t.byteOf h = ir) ∧
  decoder opcodes 0x01 = ⟨0, 1, false, some .halt⟩ ∧
  decoder opcodes 0x82 = ⟨2, 3, false, some .loadImmediate⟩ ∧
  decoder opcodes 0x47 = ⟨1, 2, false, some .print⟩ ∧
  decoder opcodes 0xA2 = ⟨2, 3, false, some .multiply⟩ ∧
  decoder opcodes 0xA0 = ⟨2, 3, false, some .add⟩ ∧
  decoder opcodes 0x45 = ⟨1, 2, false, some .push⟩ ∧
  decoder opcodes 0x46 = ⟨1, 2, false, some .pop⟩ ∧
  decoder opcodes 0x50 = ⟨1, 2, true, some .call⟩ ∧
  decoder opcodes 0x11 = ⟨0, 1, true, some .ret⟩

/-- With the spec's own table (decision D1) exactly 247 byte values are invalid opcodes, among them 0x00, 0xA1 and every
byte with bits 7:6 = 11. -/
def Obligations.InvalidOpcodeBytes : Prop :=
  ((List.range 256).filter (fun n => (handlerOf opcodes (BitVec.ofNat 8 n)).isNone)).length = 247 ∧
  handlerOf opcodes 0x00 = none ∧ handlerOf opcodes 0xA1 = none ∧
  ∀ ir : Byte, 192 ≤ ir.toNat → handlerOf opcodes ir = none

/-! ### Memory, register file, stack block, ALU -/

/-- R31: a read returns the latest write to the cell, or the loaded image byte, or the reset value 0x00; a write changes
one cell and nothing else. -/
def Obligations.MemoryContract : Prop :=
  (∀ (s : State) (a : Addr) (v : Byte),
    memRead a (memWrite a v s) = v ∧
    (∀ b, b ≠ a → memRead b (memWrite a v s) = memRead b s) ∧
    memWrite a v s = { s with mem := (memWrite a v s).mem }) ∧
  (∀ (p : Params) (image : List Byte) (s : State) (a : Addr), boot p image = .next s →
    memRead a s = image.getD a.toNat 0x00) ∧
  ∀ a, memRead a State.reset = 0x00

/-- The register file's two operations (10_state.md section 2; decisions D9, D11): a read returns the cell, a write
changes that cell and no other, and a read after it returns the written value. -/
def Obligations.RegisterFileContract : Prop :=
  ∀ (s : State) (i : RegIx) (v : Byte),
    rfRead i s = s.x[i.val] ∧
    rfRead i (rfWrite i v s) = v ∧
    (∀ j, j ≠ i → rfRead j (rfWrite i v s) = rfRead j s) ∧
    rfWrite i v s = { s with x := (rfWrite i v s).x }

/-- R130: `push_byte` and `pop_byte`, with the pointer register 7 of the register file, 0xF4 after reset: the address
written is the new pointer, the address read is the old one. -/
def Obligations.StackBlockContract : Prop :=
  (∀ (s : State) (v : Byte),
    pushByte v s = { s with x := s.x.set 7 (s.x[7] - 1), mem := (pushByte v s).mem } ∧
    memRead (s.x[7] - 1) (pushByte v s) = v ∧
    ∀ a, a ≠ s.x[7] - 1 → memRead a (pushByte v s) = memRead a s) ∧
  (∀ s : State, popByte s = (memRead s.x[7] s, { s with x := s.x.set 7 (s.x[7] + 1) })) ∧
  State.reset.x[7] = 0xF4

/-- R116, R118: the ALU's sum and product are exact modulo 256, and `ADD(a,b)` and `MULTIPLY(a,b)` leave
`(x+y) mod 256` and `(x*y) mod 256` in the first register. -/
def Obligations.AluSumAndProduct : Prop :=
  (∀ xv yv : Byte, ∃ r, alu .add xv yv = some r ∧ r.toNat = (xv.toNat + yv.toNat) % 256) ∧
  (∀ xv yv : Byte, ∃ r, alu .mul xv yv = some r ∧ r.toNat = (xv.toNat * yv.toNat) % 256) ∧
  (∀ (s : State) (a b : Byte) (ha : a.toNat < 8) (hb : b.toNat < 8),
    ∃ t, exec (.add a b) s = .next t ∧ t.x[a.toNat].toNat = (s.x[a.toNat].toNat + s.x[b.toNat].toNat) % 256) ∧
  ∀ (s : State) (a b : Byte) (ha : a.toNat < 8) (hb : b.toNat < 8),
    ∃ t, exec (.multiply a b) s = .next t ∧ t.x[a.toNat].toNat = (s.x[a.toNat].toNat * s.x[b.toNat].toNat) % 256

/-- The ALU's difference at the block interface is `xv - yv` when `xv >= yv` and `xv - yv + 256` otherwise (the spec's
decision D13), and it is written to the first register alone. -/
def Obligations.AluDifference : Prop :=
  (∀ xv yv : Byte, ∃ r, alu .sub xv yv = some r ∧
    r.toNat = if yv.toNat ≤ xv.toNat then xv.toNat - yv.toNat else xv.toNat + 256 - yv.toNat) ∧
  ∀ (s : State) (a b : RegIx),
    aluApply .sub a b s = .ok { s with x := s.x.set a.val (s.x[a.val] - s.x[b.val]) a.isLt }

/-- R162: an operation outside ADD, SUB, MUL gives no result and raises `UnsupportedOperation` with its code, nothing
else changing; and no instruction and no step brings the condition about, so no run from reset meets it. -/
def Obligations.UnsupportedOperationUnreachable : Prop :=
  (∀ (op : AluOp) (xv yv : Byte), alu op xv yv = none ↔ op = .unsupported) ∧
  (∀ (i : Instr) (s : State) (a b : RegIx),
    finish i s (aluApply .unsupported a b s) = .next { s with ctl := .faulted, fcause := 3, finfo := 3 }) ∧
  (∀ (i : Instr) (s t : State), exec i s = .next t → t.fcause = 3 → s.fcause = 3) ∧
  (∀ s t : State, step s = .next t → t.fcause = 3 → s.fcause = 3) ∧
  ∀ (p : Params) (image : List Byte) (s : State), boot p image = .next s → s.fcause = 0

/-! ### The nine instructions: encoding, effect, fatal conditions. Each effect is an equation for the whole next state,
so it is the instruction's completion and its frame as well. The opcode byte in each is the spec's decision D1 and the
`RegisterIndex` condition its decision D5; the rules cited state both. -/

/-- R100: HALT, which no other instruction resembles: what changes `ctl` is HALT or a fatal condition. If a state that
HALT leaves has a next state, it is that state itself. -/
def Obligations.HaltEffect : Prop :=
  (∀ opa opb : Byte, decode opcodes 0x01 opa opb = .ok .halt) ∧
  decoder opcodes 0x01 = ⟨0, 1, false, some .halt⟩ ∧
  (∀ s : State, exec .halt s = .next { s with ctl := .halted, pc := s.pc + 1 }) ∧
  (∀ s t u : State, exec .halt s = .next t → step t = .next u → u = t) ∧
  ∀ (i : Instr) (s t : State), exec i s = .next t → t.ctl ≠ s.ctl → t.ctl = .faulted ∨ i = .halt

/-- R105: LOAD_IMMEDIATE a, v. -/
def Obligations.LoadImmediateEffect : Prop :=
  (∀ a v : Byte, decode opcodes 0x82 a v = .ok (.loadImmediate a v)) ∧
  decoder opcodes 0x82 = ⟨2, 3, false, some .loadImmediate⟩ ∧
  (∀ (s : State) (a v : Byte) (ha : a.toNat < 8),
    exec (.loadImmediate a v) s = .next { s with x := s.x.set a.toNat v ha, pc := s.pc + 3 }) ∧
  ∀ (s : State) (a v : Byte), 8 ≤ a.toNat →
    exec (.loadImmediate a v) s = .next { s with ctl := .faulted, fcause := 2, finfo := a }

/-- R106: PRINT a. -/
def Obligations.PrintEffect : Prop :=
  (∀ a opb : Byte, decode opcodes 0x47 a opb = .ok (.print a)) ∧
  decoder opcodes 0x47 = ⟨1, 2, false, some .print⟩ ∧
  (∀ (s : State) (a : Byte) (ha : a.toNat < 8),
    exec (.print a) s = .next { s with out := s.out ++ [s.x[a.toNat]], pc := s.pc + 2 }) ∧
  (∀ (s : State) (a : Byte), 8 ≤ a.toNat →
    exec (.print a) s = .next { s with ctl := .faulted, fcause := 2, finfo := a }) ∧
  ∀ (s : State) (r v : Byte), r.toNat < 8 →
    ∃ t u, exec (.loadImmediate r v) s = .next t ∧ exec (.print r) t = .next u ∧ u.out = s.out ++ [v]

/-- R122: MULTIPLY a, b. -/
def Obligations.MultiplyEffect : Prop :=
  (∀ a b : Byte, decode opcodes 0xA2 a b = .ok (.multiply a b)) ∧
  decoder opcodes 0xA2 = ⟨2, 3, false, some .multiply⟩ ∧
  (∀ (s : State) (a b : Byte) (ha : a.toNat < 8) (hb : b.toNat < 8),
    exec (.multiply a b) s = .next { s with x := s.x.set a.toNat (s.x[a.toNat] * s.x[b.toNat]) ha, pc := s.pc + 3 }) ∧
  (∀ (s : State) (a b : Byte), 8 ≤ a.toNat →
    exec (.multiply a b) s = .next { s with ctl := .faulted, fcause := 2, finfo := a }) ∧
  ∀ (s : State) (a b : Byte), a.toNat < 8 → 8 ≤ b.toNat →
    exec (.multiply a b) s = .next { s with ctl := .faulted, fcause := 2, finfo := b }

/-- R123: ADD a, b. -/
def Obligations.AddEffect : Prop :=
  (∀ a b : Byte, decode opcodes 0xA0 a b = .ok (.add a b)) ∧
  decoder opcodes 0xA0 = ⟨2, 3, false, some .add⟩ ∧
  (∀ (s : State) (a b : Byte) (ha : a.toNat < 8) (hb : b.toNat < 8),
    exec (.add a b) s = .next { s with x := s.x.set a.toNat (s.x[a.toNat] + s.x[b.toNat]) ha, pc := s.pc + 3 }) ∧
  (∀ (s : State) (a b : Byte), 8 ≤ a.toNat →
    exec (.add a b) s = .next { s with ctl := .faulted, fcause := 2, finfo := a }) ∧
  ∀ (s : State) (a b : Byte), a.toNat < 8 → 8 ≤ b.toNat →
    exec (.add a b) s = .next { s with ctl := .faulted, fcause := 2, finfo := b }

/-- R134: PUSH a; the stored value is `x[a]` as it stands after the decrement. -/
def Obligations.PushEffect : Prop :=
  (∀ a opb : Byte, decode opcodes 0x45 a opb = .ok (.push a)) ∧
  decoder opcodes 0x45 = ⟨1, 2, false, some .push⟩ ∧
  (∀ (s : State) (a : Byte) (ha : a.toNat < 8),
    exec (.push a) s = .next { s with
      x := s.x.set 7 (s.x[7] - 1)
      mem := s.mem.write (s.x[7] - 1) (s.x.set 7 (s.x[7] - 1))[a.toNat]
      pc := s.pc + 2 }) ∧
  ∀ (s : State) (a : Byte), 8 ≤ a.toNat →
    exec (.push a) s = .next { s with ctl := .faulted, fcause := 2, finfo := a }

/-- R135: POP a; the pointer incremented is `x[7]` as it stands after the write of `x[a]`. -/
def Obligations.PopEffect : Prop :=
  (∀ a opb : Byte, decode opcodes 0x46 a opb = .ok (.pop a)) ∧
  decoder opcodes 0x46 = ⟨1, 2, false, some .pop⟩ ∧
  (∀ (s : State) (a : Byte) (ha : a.toNat < 8),
    exec (.pop a) s = .next { s with
      x := (s.x.set a.toNat (memRead s.x[7] s) ha).set 7 ((s.x.set a.toNat (memRead s.x[7] s) ha)[7] + 1)
      pc := s.pc + 2 }) ∧
  ∀ (s : State) (a : Byte), 8 ≤ a.toNat →
    exec (.pop a) s = .next { s with ctl := .faulted, fcause := 2, finfo := a }

/-- R145: CALL a; the pushed byte is the address of the CALL plus 2, the target `x[a]` as it stands after the
decrement. -/
def Obligations.CallEffect : Prop :=
  (∀ a opb : Byte, decode opcodes 0x50 a opb = .ok (.call a)) ∧
  decoder opcodes 0x50 = ⟨1, 2, true, some .call⟩ ∧
  (∀ (s : State) (a : Byte) (ha : a.toNat < 8),
    exec (.call a) s = .next { s with
      x := s.x.set 7 (s.x[7] - 1)
      mem := s.mem.write (s.x[7] - 1) (s.pc + 2)
      pc := (s.x.set 7 (s.x[7] - 1))[a.toNat] }) ∧
  ∀ (s : State) (a : Byte), 8 ≤ a.toNat →
    exec (.call a) s = .next { s with ctl := .faulted, fcause := 2, finfo := a }

/-- R146: RETURN. -/
def Obligations.ReturnEffect : Prop :=
  (∀ opa opb : Byte, decode opcodes 0x11 opa opb = .ok .ret) ∧
  decoder opcodes 0x11 = ⟨0, 1, true, some .ret⟩ ∧
  ∀ s : State, exec .ret s = .next { s with pc := memRead s.x[7] s, x := s.x.set 7 (s.x[7] + 1) }

/-- PUSH, POP and CALL of register 7, statement by statement (the spec's decision D9): PUSH 7 stores the decremented
pointer, POP 7 leaves the popped byte plus 1, CALL 7 goes to the decremented pointer. -/
def Obligations.StackOperandSeven : Prop :=
  (∀ s : State, exec (.push 7) s = .next { s with
    x := s.x.set 7 (s.x[7] - 1), mem := s.mem.write (s.x[7] - 1) (s.x[7] - 1), pc := s.pc + 2 }) ∧
  (∀ s : State, exec (.pop 7) s = .next { s with x := s.x.set 7 (memRead s.x[7] s + 1), pc := s.pc + 2 }) ∧
  ∀ s : State, exec (.call 7) s = .next { s with
    x := s.x.set 7 (s.x[7] - 1), mem := s.mem.write (s.x[7] - 1) (s.pc + 2), pc := s.x[7] - 1 }

/-! ### Frames -/

/-- LOAD_IMMEDIATE, MULTIPLY and ADD change no register but their destination, no byte of memory and no output; and with
operands in range no control state either. -/
def Obligations.RegisterResultFrame : Prop :=
  ∀ (i : Instr) (a b : Byte), i = .loadImmediate a b ∨ i = .multiply a b ∨ i = .add a b →
    ∀ s t : State, exec i s = .next t →
      (∀ j : RegIx, j.val ≠ a.toNat → rfRead j t = rfRead j s) ∧
      (∀ addr, memRead addr t = memRead addr s) ∧
      t.out = s.out ∧
      (i.wellFormed = true → t.ctl = s.ctl ∧ t.fcause = s.fcause ∧ t.finfo = s.finfo) ∧
      (i.wellFormed = false → t.x = s.x)

/-- HALT and PRINT change no register and no byte of memory; HALT changes no output and no cause, PRINT with its operand
in range no control state. -/
def Obligations.HaltPrintFrame : Prop :=
  (∀ s t : State, exec .halt s = .next t →
    t.x = s.x ∧ (∀ addr, memRead addr t = memRead addr s) ∧ t.out = s.out ∧ t.fcause = s.fcause ∧ t.finfo = s.finfo) ∧
  ∀ (a : Byte) (s t : State), exec (.print a) s = .next t →
    t.x = s.x ∧ (∀ addr, memRead addr t = memRead addr s) ∧
    (a.toNat < 8 → t.ctl = s.ctl ∧ t.fcause = s.fcause ∧ t.finfo = s.finfo)

/-- PUSH and CALL change no register but the stack pointer, no byte of memory but the one at the new stack pointer (the
byte `storeTop` writes after `spDec`), and no output; with the operand in range no control state either. -/
def Obligations.StoreFrame : Prop :=
  ∀ (i : Instr) (a : Byte), i = .push a ∨ i = .call a →
    ∀ s t : State, exec i s = .next t →
      (∀ j : RegIx, j ≠ spIndex → rfRead j t = rfRead j s) ∧
      (∀ addr, addr ≠ sp (spDec s) → memRead addr t = memRead addr s) ∧
      t.out = s.out ∧
      (a.toNat < 8 → t.ctl = s.ctl ∧ t.fcause = s.fcause ∧ t.finfo = s.finfo) ∧
      (8 ≤ a.toNat → t.x = s.x ∧ ∀ addr, memRead addr t = memRead addr s)

/-- POP changes no register but its destination and the stack pointer, RETURN none but the stack pointer; neither changes
a byte of memory or output, and with POP's operand in range neither changes control state. -/
def Obligations.LoadFrame : Prop :=
  (∀ (a : Byte) (s t : State), exec (.pop a) s = .next t →
    (∀ j : RegIx, j.val ≠ a.toNat → j ≠ spIndex → rfRead j t = rfRead j s) ∧
    (∀ addr, memRead addr t = memRead addr s) ∧ t.out = s.out ∧
    (a.toNat < 8 → t.ctl = s.ctl ∧ t.fcause = s.fcause ∧ t.finfo = s.finfo) ∧
    (8 ≤ a.toNat → t.x = s.x)) ∧
  ∀ s t : State, exec .ret s = .next t →
    (∀ j : RegIx, j ≠ spIndex → rfRead j t = rfRead j s) ∧
    (∀ addr, memRead addr t = memRead addr s) ∧ t.out = s.out ∧
    t.ctl = s.ctl ∧ t.fcause = s.fcause ∧ t.finfo = s.finfo

/-- R79: the loop adds `ilen` to `pc` unless the instruction is self-advancing, and does nothing else; so every
instruction but CALL and RETURN, with its operands in range, leaves `pc` at its own address plus its length. -/
def Obligations.PcLogicAdvance : Prop :=
  (∀ (ir : Byte) (s : State), ir.toNat / 16 % 2 = 0 →
    pcLogic ir s = { s with pc := s.pc + BitVec.ofNat 8 (ir.toNat / 64 + 1) }) ∧
  (∀ (ir : Byte) (s : State), ir.toNat / 16 % 2 = 1 → pcLogic ir s = s) ∧
  ∀ (i : Instr), i.wellFormed = true → i.handler ≠ .call → i.handler ≠ .ret → ∀ s : State,
    ∃ t, exec i s = .next t ∧ t.pc = s.pc + BitVec.ofNat 8 (decoder opcodes i.opcodeByte).ilen.toNat

/-! ### Fatal conditions -/

/-- The fatal-condition entry (60_exceptions.md section 4; decisions D7, D8, D21): cause code, information and `Faulted`,
and nothing else. -/
def Obligations.FatalConditionEntry : Prop :=
  ∀ (info : Byte) (s : State),
    raise .invalidOpcode info s = { s with fcause := 1, finfo := info, ctl := .faulted } ∧
    raise .registerIndex info s = { s with fcause := 2, finfo := info, ctl := .faulted } ∧
    raise .unsupportedOperation info s = { s with fcause := 3, finfo := info, ctl := .faulted }

/-- An instruction with a register operand of 8 or more raises `RegisterIndex` with the FIRST such operand, and nothing
else changes (the spec's decisions D5, D21). -/
def Obligations.IllegalOperandRaises : Prop :=
  ∀ (i : Instr) (s : State), i.wellFormed = false →
    ∃ v, i.regOperands.find? (fun o => !isRegIndex o) = some v ∧
      exec i s = .next { s with ctl := .faulted, fcause := 2, finfo := v }

/-- An instruction whose register operands are in range raises nothing: HALT leaves `Halted`, every other leaves the
control state, and none writes the cause or the information (the spec's decisions D5, D7). -/
def Obligations.LegalOperandsRaiseNothing : Prop :=
  ∀ (i : Instr) (s : State), i.wellFormed = true →
    ∃ t, exec i s = .next t ∧ t.fcause = s.fcause ∧ t.finfo = s.finfo ∧
      t.ctl = if i = .halt then .halted else s.ctl

/-! ### The step -/

/-- A running machine whose bytes at `pc`, `pc + 1`, `pc + 2` decode to `i` runs `i`: for any parameters, with the
register-operand policy applied to it, and for the machine's own step as it stands. `exec` holds the `pc` advance, so
nothing is added around it. Two parts of the first clause are the model's choice, each DEDUCED. Under
`REG_INDEX_POLICY = mask3` (decision D5) the operands are masked by `policyInstr` before the instruction runs (log entry
11, from 10_state.md R15). Under another opcode table `exec` takes length and advance mode from the spec's own table (log
entry 10); R55 makes them the same in every table it admits, and for a table it does not admit the clause is about the
model alone. The second clause, `step`'s own, rests on neither. -/
def Obligations.StepRunsDecodedInstruction : Prop :=
  (∀ (p : Params) (s : State) (i : Instr), s.ctl = .running →
    decode p.opcodes (memRead s.pc s) (memRead (s.pc + 1) s) (memRead (s.pc + 2) s) = .ok i →
    cycle p s = exec (policyInstr p.regIndex i) s) ∧
  ∀ (s : State) (i : Instr), s.ctl = .running →
    decode opcodes (memRead s.pc s) (memRead (s.pc + 1) s) (memRead (s.pc + 2) s) = .ok i →
    step s = exec i s

/-- R82: for a running machine `step` is the complete transition of R82, here `r82Step`, a transcription of it on raw
bytes that shares no decoder and no handler with the model. -/
def Obligations.StepIsTheTransitionOfR82 : Prop :=
  ∀ s : State, s.ctl = .running → step s = .next (r82Step s)

/-- A running machine whose byte at `pc` is no opcode raises `InvalidOpcode` with that byte, whatever the operand bytes
are, and nothing else changes, `pc` included (the spec's decision D4). -/
def Obligations.InvalidOpcodeStep : Prop :=
  ∀ s : State, s.ctl = .running → handlerOf opcodes (memRead s.pc s) = none →
    step s = .next { s with ctl := .faulted, fcause := 1, finfo := memRead s.pc s }

/-- From every state, under any parameters, exactly one next state follows: no step faults or is refused (derived by the
spec in 40_core_cycle.md section 6; for a stopped machine the next state is the model's choice, log entry 9). -/
def Obligations.StepTotal : Prop :=
  (∀ s : State, ∃ t, step s = .next t) ∧ ∀ (p : Params) (s : State), ∃ t, cycle p s = .next t

/-- A machine that is not running holds all its state, for ever: under any parameters its step answers the state itself
(decision D20; the form of the answer is the model's choice, log entry 9), and a run that has stopped stays where it
is. -/
def Obligations.StoppedMachineHoldsState : Prop :=
  (∀ (p : Params) (s : State), s.ctl ≠ .running → cycle p s = .next s) ∧
  ∀ (k m : Nat) (s t : State), core.run k s = .next t → t.ctl ≠ .running → core.run (k + m) s = .next t

/-- The control state machine (40_core_cycle.md section 2; decisions D7, D20): a step of a running machine leads to
`Halted` exactly on HALT, to `Faulted` exactly when the current bytes raise a condition, and otherwise to `Running`. -/
def Obligations.ControlTransitions : Prop :=
  ∀ s t : State, s.ctl = .running → step s = .next t →
    (t.ctl = .halted ↔ current s = .ok .halt) ∧
    (t.ctl = .faulted ↔
      (∃ ir, current s = .error (.invalidOpcode ir)) ∨ ∃ i, current s = .ok i ∧ i.wellFormed = false) ∧
    (t.ctl = .running ↔ ∃ i, current s = .ok i ∧ i ≠ .halt ∧ i.wellFormed = true)

/-- Bytes beyond the operands of the instruction at `pc` do not matter (40_core_cycle.md section 3): changing the byte at
`pc + 2` when `nops < 2`, or at `pc + 1` when `nops = 0`, changes neither the instruction nor that it is run. -/
def Obligations.UnusedFetchedBytesIgnored : Prop :=
  ∀ (s : State) (i : Instr) (v : Byte), s.ctl = .running → current s = .ok i →
    ((nops (memRead s.pc s)).toNat < 2 →
      step (memWrite (s.pc + 2) v s) = exec i (memWrite (s.pc + 2) v s)) ∧
    ((nops (memRead s.pc s)).toNat < 1 →
      step (memWrite (s.pc + 1) v s) = exec i (memWrite (s.pc + 1) v s))

/-! ### Rules over the whole machine -/

/-- Only PRINT changes the output, by appending one byte, the register it names (10_state.md section 5; decision D14). -/
def Obligations.OutputOnlyAppendedByPrint : Prop :=
  State.reset.out = [] ∧
  ∀ s t : State, step s = .next t →
    t.out = s.out ∨
    (s.ctl = .running ∧ ∃ (a : Byte) (ha : a.toNat < 8), current s = .ok (.print a) ∧
      t.out = s.out ++ [s.x[a.toNat]])

/-- Nothing reads the output, the cause or the information back: changing them changes nothing a step does to memory,
registers, `pc` and `ctl`, nor the bytes it emits. -/
def Obligations.ObservedStateNotReadBack : Prop :=
  ∀ (s t : State) (c : BitVec 2) (info : Byte) (o : List Byte), step s = .next t →
    ∃ t', step { s with fcause := c, finfo := info, out := o } = .next t' ∧
      t'.mem = t.mem ∧ t'.x = t.x ∧ t'.pc = t.pc ∧ t'.ctl = t.ctl ∧
      ∃ emitted, t.out = s.out ++ emitted ∧ t'.out = o ++ emitted

/-- Memory is written by PUSH and CALL alone, and only the cell at the new stack pointer (20_memory.md section 1, a rule
the spec derives). -/
def Obligations.MemoryWrittenOnlyByPushAndCall : Prop :=
  ∀ s t : State, step s = .next t → ∀ a, memRead a t ≠ memRead a s →
    s.ctl = .running ∧ a = s.x[7] - 1 ∧ ∃ r, current s = .ok (.push r) ∨ current s = .ok (.call r)

/-- A register is written only as the table of reads and writes says (10_state.md section 2, a rule the spec derives): by
LOAD_IMMEDIATE, MULTIPLY, ADD or POP that name it, or, for register 7, by PUSH, POP, CALL or RETURN. -/
def Obligations.RegistersWrittenOnlyByTable : Prop :=
  ∀ s t : State, step s = .next t → ∀ j : RegIx, rfRead j t ≠ rfRead j s →
    ∃ i, s.ctl = .running ∧ current s = .ok i ∧
      ((∃ a b : Byte, a.toNat = j.val ∧
          (i = .loadImmediate a b ∨ i = .multiply a b ∨ i = .add a b ∨ i = .pop a)) ∨
       (j = spIndex ∧ (i = .ret ∨ ∃ a : Byte, i = .push a ∨ i = .pop a ∨ i = .call a)))

/-- A store is seen by the very next fetch (20_memory.md section 5, a rule the spec derives): a PUSH whose cell is the
next instruction's opcode changes the opcode the next step fetches, and that step runs on it. -/
def Obligations.NextFetchSeesStore : Prop :=
  ∀ (s : State) (a : Byte) (ha : a.toNat < 8), s.ctl = .running → current s = .ok (.push a) →
    s.x[7] - 1 = s.pc + 2 →
    ∃ t, step s = .next t ∧ t.ctl = .running ∧ t.pc = s.pc + 2 ∧
      (fetch t).ir = (s.x.set 7 (s.x[7] - 1))[a.toNat]

/-- The stack law (44_stack.md section 2, a rule the spec derives), the pushed cell being no byte of the POP: for r and q
from 0 to 6, PUSH r and then POP q copies `x[r]` to `x[q]` and leaves the stack pointer; and for every r from 0 to 7,
PUSH r and then POP r restores every register. -/
def Obligations.StackLaw : Prop :=
  (∀ (s : State) (r q : Byte) (hr : r.toNat < 7) (hq : q.toNat < 7), s.ctl = .running →
    current s = .ok (.push r) → memRead (s.pc + 2) s = 0x46 → memRead (s.pc + 3) s = q →
    s.x[7] - 1 ≠ s.pc + 2 → s.x[7] - 1 ≠ s.pc + 3 →
    core.run 2 s = .next { s with
      x := s.x.set q.toNat s.x[r.toNat], mem := s.mem.write (s.x[7] - 1) s.x[r.toNat], pc := s.pc + 4 }) ∧
  ∀ (s : State) (r : Byte), r.toNat < 8 → s.ctl = .running →
    current s = .ok (.push r) → memRead (s.pc + 2) s = 0x46 → memRead (s.pc + 3) s = r →
    s.x[7] - 1 ≠ s.pc + 2 → s.x[7] - 1 ≠ s.pc + 3 →
    ∃ t, core.run 2 s = .next t ∧ t.x = s.x ∧ t.pc = s.pc + 4

/-- The call/return law, one level deep (45_call_return.md, a rule the spec derives): CALL r to a RETURN that the pushed
byte does not overwrite comes back to the CALL's address plus 2 with every register as it was. r is 0 to 6: CALL 7 goes
to the pushed byte itself. -/
def Obligations.CallReturnLaw : Prop :=
  ∀ (s : State) (r : Byte) (hr : r.toNat < 7), s.ctl = .running → current s = .ok (.call r) →
    memRead s.x[r.toNat] s = 0x11 → s.x[7] - 1 ≠ s.x[r.toNat] →
    ∃ t, core.run 2 s = .next t ∧ t.ctl = .running ∧ t.pc = s.pc + 2 ∧ t.x = s.x ∧ t.out = s.out

/-- The stack pointer after any sequence of stack operations: one less for each push, one more for each pop, modulo 256
(44_stack.md section 1, a rule the spec derives). -/
def Obligations.StackPointerCountsOperations : Prop :=
  ∀ (ops : List (Option Byte)) (s : State),
    sp (stackOps ops s) =
      sp s - BitVec.ofNat 8 (ops.countP Option.isSome) + BitVec.ofNat 8 (ops.countP Option.isNone)

/-- Last in, first out (44_stack.md section 1, a rule the spec derives): as many pops as there were pushes, at most 256,
give the pushed bytes back in reverse and leave the stack pointer where it was. -/
def Obligations.StackLastInFirstOut : Prop :=
  ∀ (vs : List Byte) (s : State), vs.length ≤ 256 →
    popped vs.length (stackOps (vs.map some) s) = vs.reverse ∧
    sp (stackOps (vs.map some ++ List.replicate vs.length none) s) = sp s

/-! ### Reset -/

/-- What reset leaves with no image (10_state.md section 8; registers 0 to 6 by the spec's decision D6): memory all zeros,
SP 0xF4, `pc` 0, `Running`, no condition, no output. -/
def Obligations.ResetValues : Prop :=
  (∀ a, memRead a State.reset = 0x00) ∧
  (∀ i : RegIx, i ≠ spIndex → rfRead i State.reset = 0x00) ∧ rfRead spIndex State.reset = 0xF4 ∧
  State.reset.pc = 0x00 ∧ State.reset.ctl = .running ∧
  State.reset.fcause = 0 ∧ State.reset.finfo = 0x00 ∧ State.reset.out = [] ∧
  boot defaultParams [] = .next State.reset

/-- Reset with an image (70_reset_and_hazards.md section 1; decisions D15, D17), for every `REG_RESET`: at most 256 bytes
are loaded from address 0 with zeros after them and the rest is as reset leaves it; a longer image is refused. -/
def Obligations.BootLoadsImage : Prop :=
  (∀ (p : Params) (image : List Byte), image.length ≤ 256 →
    ∃ s, boot p image = .next s ∧
      (∀ a : Addr, memRead a s = if h : a.toNat < image.length then image[a.toNat] else 0x00) ∧
      (∀ i : Fin 7, s.x[i.val] = p.regReset[i.val]) ∧ s.x[7] = 0xF4 ∧
      s.pc = 0x00 ∧ s.ctl = .running ∧ s.fcause = 0 ∧ s.finfo = 0x00 ∧ s.out = []) ∧
  ∀ (p : Params) (image : List Byte), 256 < image.length → boot p image = .fault .imageTooLong

/-! ### The other policies of 00_scope.md R6 -/

/-- Under `INVALID_OPCODE_POLICY = spin` (decision D4) a step on an invalid opcode changes nothing at all, and so repeats
for ever. -/
def Obligations.SpinPolicyRepeats : Prop :=
  ∀ (p : Params) (s : State), p.invalidOpcode = .spin → s.ctl = .running →
    handlerOf p.opcodes (memRead s.pc s) = none → cycle p s = .next s

/-- Under `REG_INDEX_POLICY = mask3` (decision D5) a register operand counts by its bits 2:0, the immediate is untouched,
and no step on a valid opcode enters `Faulted`. That the operands are masked before the instruction runs is the model's
choice (DEDUCED, log entry 11). -/
def Obligations.MaskPolicyNeverFaults : Prop :=
  (∀ i : Instr, (policyInstr .mask3 i).wellFormed = true ∧ (policyInstr .mask3 i).handler = i.handler ∧
    (policyInstr .mask3 i).regOperands.map BitVec.toNat = i.regOperands.map (fun v => v.toNat % 8)) ∧
  (∀ a v : Byte, ∃ a', policyInstr .mask3 (.loadImmediate a v) = .loadImmediate a' v) ∧
  ∀ (p : Params) (s t : State), p.regIndex = .mask3 → s.ctl = .running →
    handlerOf p.opcodes (memRead s.pc s) ≠ none → cycle p s = .next t → t.ctl ≠ .faulted

/-! ### The invariant -/

/-- The state after reset, with any image and any `REG_RESET`, meets the invariant. The invariant's memory part, the
canonical form `Memory.wf` (a list of the cells that are not 0x00, by rising address), is the model's choice (DESIGN
CHOICE, log entry 12); the spec gives only the 256 cells and their reset content 0x00 (R25, R30). -/
def Obligations.ResetMeetsInvariant : Prop :=
  State.reset.inv = true ∧
  ∀ (p : Params) (image : List Byte) (s : State), boot p image = .next s → s.inv = true

/-- Every step keeps the invariant: memory stays in canonical form; no condition is recorded while Running or Halted; a
halted machine's `pc` is one past a HALT byte; and a faulted machine's record is the condition that the bytes at its `pc`
raise. The canonical form, `Memory.wf`, is the model's choice (DESIGN CHOICE, log entry 12) and follows from no section
of the spec. The record of a condition is the spec's decisions D7, D8 and D21, and a halted machine's `pc` its rule R80,
which it marks as derived (log entry 8). -/
def Obligations.StepKeepsInvariant : Prop :=
  ∀ s t : State, s.inv = true → step s = .next t → t.inv = true
end

