-- ==== Sys2Proof/Laws/State.lean ====
section
/-! SUPPORT. One lemma per field of State per primitive update, so that no proof unfolds a record update. -/

namespace Sys2Proof.Machine

variable (s : State)

@[simp] theorem memWrite_mem (a : Addr) (v : Byte) : (memWrite a v s).mem = s.mem.write a v := rfl
@[simp] theorem memWrite_x (a : Addr) (v : Byte) : (memWrite a v s).x = s.x := rfl
@[simp] theorem memWrite_pc (a : Addr) (v : Byte) : (memWrite a v s).pc = s.pc := rfl
@[simp] theorem memWrite_ctl (a : Addr) (v : Byte) : (memWrite a v s).ctl = s.ctl := rfl
@[simp] theorem memWrite_fcause (a : Addr) (v : Byte) : (memWrite a v s).fcause = s.fcause := rfl
@[simp] theorem memWrite_finfo (a : Addr) (v : Byte) : (memWrite a v s).finfo = s.finfo := rfl
@[simp] theorem memWrite_out (a : Addr) (v : Byte) : (memWrite a v s).out = s.out := rfl

@[simp] theorem rfWrite_mem (i : RegIx) (v : Byte) : (rfWrite i v s).mem = s.mem := rfl
@[simp] theorem rfWrite_x (i : RegIx) (v : Byte) : (rfWrite i v s).x = s.x.set i.val v i.isLt := rfl
@[simp] theorem rfWrite_pc (i : RegIx) (v : Byte) : (rfWrite i v s).pc = s.pc := rfl
@[simp] theorem rfWrite_ctl (i : RegIx) (v : Byte) : (rfWrite i v s).ctl = s.ctl := rfl
@[simp] theorem rfWrite_fcause (i : RegIx) (v : Byte) : (rfWrite i v s).fcause = s.fcause := rfl
@[simp] theorem rfWrite_finfo (i : RegIx) (v : Byte) : (rfWrite i v s).finfo = s.finfo := rfl
@[simp] theorem rfWrite_out (i : RegIx) (v : Byte) : (rfWrite i v s).out = s.out := rfl

@[simp] theorem setPc_mem (target : Addr) : (setPc target s).mem = s.mem := rfl
@[simp] theorem setPc_x (target : Addr) : (setPc target s).x = s.x := rfl
@[simp] theorem setPc_pc (target : Addr) : (setPc target s).pc = target := rfl
@[simp] theorem setPc_ctl (target : Addr) : (setPc target s).ctl = s.ctl := rfl
@[simp] theorem setPc_fcause (target : Addr) : (setPc target s).fcause = s.fcause := rfl
@[simp] theorem setPc_finfo (target : Addr) : (setPc target s).finfo = s.finfo := rfl
@[simp] theorem setPc_out (target : Addr) : (setPc target s).out = s.out := rfl

@[simp] theorem emit_mem (v : Byte) : (emit v s).mem = s.mem := rfl
@[simp] theorem emit_x (v : Byte) : (emit v s).x = s.x := rfl
@[simp] theorem emit_pc (v : Byte) : (emit v s).pc = s.pc := rfl
@[simp] theorem emit_ctl (v : Byte) : (emit v s).ctl = s.ctl := rfl
@[simp] theorem emit_fcause (v : Byte) : (emit v s).fcause = s.fcause := rfl
@[simp] theorem emit_finfo (v : Byte) : (emit v s).finfo = s.finfo := rfl
@[simp] theorem emit_out (v : Byte) : (emit v s).out = s.out ++ [v] := rfl

@[simp] theorem setHalted_mem : (setHalted s).mem = s.mem := rfl
@[simp] theorem setHalted_x : (setHalted s).x = s.x := rfl
@[simp] theorem setHalted_pc : (setHalted s).pc = s.pc := rfl
@[simp] theorem setHalted_ctl : (setHalted s).ctl = .halted := rfl
@[simp] theorem setHalted_fcause : (setHalted s).fcause = s.fcause := rfl
@[simp] theorem setHalted_finfo : (setHalted s).finfo = s.finfo := rfl
@[simp] theorem setHalted_out : (setHalted s).out = s.out := rfl

@[simp] theorem raise_mem (c : Condition) (info : Byte) : (raise c info s).mem = s.mem := rfl
@[simp] theorem raise_x (c : Condition) (info : Byte) : (raise c info s).x = s.x := rfl
@[simp] theorem raise_pc (c : Condition) (info : Byte) : (raise c info s).pc = s.pc := rfl
@[simp] theorem raise_ctl (c : Condition) (info : Byte) : (raise c info s).ctl = .faulted := rfl
@[simp] theorem raise_fcause (c : Condition) (info : Byte) : (raise c info s).fcause = conditionCode c := rfl
@[simp] theorem raise_finfo (c : Condition) (info : Byte) : (raise c info s).finfo = info := rfl
@[simp] theorem raise_out (c : Condition) (info : Byte) : (raise c info s).out = s.out := rfl

end Sys2Proof.Machine
end

