-- ==== Sys2Proof/Laws/Memory.lean ====
section
/-! SUPPORT. Memory: a read after a write, and the canonical form that every memory operation keeps. -/

namespace Sys2Proof.Machine

/-! ### Read after write, for any list of cells -/

@[simp] theorem Memory.get_nil (k : Nat) : Memory.get [] k = unlistedByte := rfl

theorem Memory.get_erase (m : Memory) (k j : Nat) :
    (m.erase k).get j = if j = k then unlistedByte else m.get j := by
  induction m with
  | nil => simp [Memory.erase]
  | cons c rest ih =>
    simp only [Memory.erase] at ih ⊢
    by_cases hc : c.1 = k
    · rw [List.filter_cons_of_neg (by simp [hc]), ih]
      by_cases hj : j = k
      · simp [hj]
      · simp [hj, Memory.get, hc, Ne.symm hj]
    · rw [List.filter_cons_of_pos (by simp [hc])]
      simp only [Memory.get, ih]
      by_cases hj : j = k
      · simp [hj, hc]
      · simp [hj]

theorem Memory.get_insert (m : Memory) (k j : Nat) (v : Byte) (h : ∀ c ∈ m, c.1 ≠ k) :
    (m.insert k v).get j = if j = k then v else m.get j := by
  induction m with
  | nil =>
    by_cases hj : j = k
    · simp [Memory.insert, Memory.get, hj]
    · simp [Memory.insert, Memory.get, hj, Ne.symm hj]
  | cons c rest ih =>
    have hc : c.1 ≠ k := h c (by simp)
    have ih := ih (fun d hd => h d (by simp [hd]))
    by_cases hj : j = k
    · subst hj
      by_cases hlt : j < c.1
      · simp [Memory.insert, hlt, Memory.get]
      · simp [Memory.insert, hlt, Memory.get, hc, ih]
    · by_cases hlt : k < c.1
      · simp [Memory.insert, hlt, Memory.get, hj, Ne.symm hj]
      · simp [Memory.insert, hlt, Memory.get, hj, ih]

theorem Memory.mem_erase_ne (m : Memory) (k : Nat) : ∀ c ∈ m.erase k, c.1 ≠ k := by
  intro c hc
  simpa using (List.mem_filter.mp hc).2

/-- Reading after a write: the value written at that key, and what was there everywhere else. -/
theorem Memory.get_set (m : Memory) (k j : Nat) (v : Byte) :
    (m.set k v).get j = if j = k then v else m.get j := by
  by_cases hv : v = unlistedByte
  · simp [Memory.set, hv, Memory.get_erase]
  · rw [Memory.set, if_neg hv, Memory.get_insert _ _ _ _ (Memory.mem_erase_ne m k), Memory.get_erase]
    by_cases hj : j = k <;> simp [hj]

theorem Memory.read_write (m : Memory) (a b : Addr) (v : Byte) :
    (m.write a v).read b = if b = a then v else m.read b := by
  simp [Memory.write, Memory.read, Memory.get_set, BitVec.toNat_inj]

/-! ### The canonical form -/

theorem Memory.wf_iff (m : Memory) :
    m.wf = true ↔ m.Pairwise (fun c d => c.1 < d.1) ∧ ∀ c ∈ m, c.1 < memSize ∧ c.2 ≠ unlistedByte := by
  simp [Memory.wf]

theorem Memory.wf_nil : Memory.wf [] = true := by decide

theorem Memory.wf_erase (m : Memory) (k : Nat) (h : m.wf = true) : (m.erase k).wf = true := by
  rw [Memory.wf_iff] at h ⊢
  exact ⟨h.1.filter _, fun c hc => h.2 c (List.mem_filter.mp hc).1⟩

theorem Memory.mem_insert (m : Memory) (k : Nat) (v : Byte) (c : Host.Cell) :
    c ∈ m.insert k v → c = (k, v) ∨ c ∈ m := by
  induction m with
  | nil => simp [Memory.insert]
  | cons d rest ih =>
    by_cases hlt : k < d.1
    · simp [Memory.insert, hlt]
    · simp only [Memory.insert, hlt, if_false, List.mem_cons]
      rintro (h | h)
      · exact .inr (.inl h)
      · exact (ih h).imp_right .inr

theorem Memory.pairwise_insert (m : Memory) (k : Nat) (v : Byte) (hm : m.Pairwise (fun c d => c.1 < d.1))
    (hk : ∀ c ∈ m, c.1 ≠ k) : (m.insert k v).Pairwise (fun c d => c.1 < d.1) := by
  induction m with
  | nil => simp [Memory.insert]
  | cons d rest ih =>
    have ⟨hd, hrest⟩ := List.pairwise_cons.mp hm
    by_cases hlt : k < d.1
    · simp only [Memory.insert, hlt, if_true]
      refine List.pairwise_cons.mpr ⟨?_, hm⟩
      intro c hc
      rcases List.mem_cons.mp hc with rfl | hc
      · exact hlt
      · exact hlt.trans (hd c hc)
    · simp only [Memory.insert, hlt, if_false]
      refine List.pairwise_cons.mpr ⟨?_, ih hrest (fun c hc => hk c (by simp [hc]))⟩
      intro c hc
      have hne : d.1 ≠ k := hk d (by simp)
      rcases Memory.mem_insert rest k v c hc with rfl | hc
      · show d.1 < k
        omega
      · exact hd c hc

/-- Every write inside memory keeps the canonical form. -/
theorem Memory.wf_set (m : Memory) (k : Nat) (v : Byte) (hk : k < memSize) (h : m.wf = true) :
    (m.set k v).wf = true := by
  by_cases hv : v = unlistedByte
  · rw [Memory.set, if_pos hv]
    exact Memory.wf_erase m k h
  · rw [Memory.set, if_neg hv]
    have he := (Memory.wf_iff _).mp (Memory.wf_erase m k h)
    rw [Memory.wf_iff]
    refine ⟨Memory.pairwise_insert _ k v he.1 (Memory.mem_erase_ne m k), ?_⟩
    intro c hc
    rcases Memory.mem_insert _ k v c hc with rfl | hc
    · exact ⟨hk, hv⟩
    · exact he.2 c hc

theorem Memory.wf_write (m : Memory) (a : Addr) (v : Byte) (h : m.wf = true) : (m.write a v).wf = true :=
  Memory.wf_set m a.toNat v a.isLt h

theorem memWrite_wf (a : Addr) (v : Byte) (s : State) (h : s.mem.wf = true) : (memWrite a v s).mem.wf = true :=
  Memory.wf_write s.mem a v h

theorem memWriteList_wf (bytes : List Byte) (a : Addr) (s : State) (h : s.mem.wf = true) :
    (memWriteList a bytes s).mem.wf = true := by
  induction bytes generalizing a s with
  | nil => exact h
  | cons b rest ih => exact ih (a + 1) (memWrite a b s) (memWrite_wf a b s h)

/-- Writing a list of bytes touches memory alone. -/
theorem memWriteList_frame (bytes : List Byte) (a : Addr) (s : State) :
    memWriteList a bytes s = { s with mem := (memWriteList a bytes s).mem } := by
  induction bytes generalizing a s with
  | nil => rfl
  | cons b rest ih =>
    show memWriteList (a + 1) rest (memWrite a b s) = _
    rw [ih]
    rfl

theorem reset_mem_wf : State.reset.mem.wf = true := by decide

/-! ### MemRead against the updates of the state -/

theorem memRead_eq (a : Addr) (s : State) : memRead a s = s.mem.read a := rfl

theorem memRead_memWrite_same (a : Addr) (v : Byte) (s : State) : memRead a (memWrite a v s) = v := by
  simp [memRead_eq, Memory.read_write]

theorem memRead_memWrite_ne (a b : Addr) (v : Byte) (s : State) (h : b ≠ a) :
    memRead b (memWrite a v s) = memRead b s := by
  simp [memRead_eq, Memory.read_write, h]

/-- A read after a list of at most 256 bytes was written from `a` on: the byte at its place in the list, or what was
there. -/
theorem memRead_memWriteList (bytes : List Byte) (a b : Addr) (s : State) (h : bytes.length ≤ 256) :
    memRead b (memWriteList a bytes s) =
      if h : (b - a).toNat < bytes.length then bytes[(b - a).toNat] else memRead b s := by
  induction bytes generalizing a s with
  | nil => rfl
  | cons v rest ih =>
    rw [List.length_cons] at h
    show memRead b (memWriteList (a + 1) rest (memWrite a v s)) = _
    rw [ih (a + 1) (memWrite a v s) (by omega)]
    by_cases hb : b = a
    · subst hb
      have past : (b - (b + 1)).toNat = 255 := by
        have e : b - (b + 1) = 255 := by bv_omega
        rw [e]; rfl
      rw [dif_neg (by omega)]
      simp [memRead_memWrite_same]
    · have shift : (b - a).toNat = (b - (a + 1)).toNat + 1 := by
        have : b.toNat ≠ a.toNat := fun e => hb (BitVec.eq_of_toNat_eq e)
        bv_omega
      simp only [shift, List.length_cons]
      by_cases hlt : (b - (a + 1)).toNat < rest.length
      · rw [dif_pos hlt, dif_pos (by omega)]; simp
      · rw [dif_neg hlt, dif_neg (by omega), memRead_memWrite_ne _ _ _ _ hb]

/-- A read depends on memory alone. -/
theorem memRead_congr (a : Addr) (s t : State) (h : t.mem = s.mem) : memRead a t = memRead a s := by
  simp [memRead_eq, h]

@[simp] theorem memRead_rfWrite (a : Addr) (i : RegIx) (v : Byte) (s : State) :
    memRead a (rfWrite i v s) = memRead a s := rfl
@[simp] theorem memRead_setPc (a target : Addr) (s : State) : memRead a (setPc target s) = memRead a s := rfl
@[simp] theorem memRead_emit (a : Addr) (v : Byte) (s : State) : memRead a (emit v s) = memRead a s := rfl
@[simp] theorem memRead_setHalted (a : Addr) (s : State) : memRead a (setHalted s) = memRead a s := rfl
@[simp] theorem memRead_raise (a : Addr) (c : Condition) (v : Byte) (s : State) :
    memRead a (raise c v s) = memRead a s := rfl

end Sys2Proof.Machine
end

