-- ==== Sys2Proof/Laws/Ops.lean ====
section
/-! SUPPORT. One lemma for each shared operation that says everything it does: register file, stack pointer, pc_logic,
operand check, ALU write-back and the end of an instruction. -/

namespace Sys2Proof.Machine

/-! ### register_file -/

theorem rfRead_eq (i : RegIx) (s : State) : rfRead i s = s.x[i.val] := rfl

@[simp] theorem rfRead_rfWrite_same (i : RegIx) (v : Byte) (s : State) : rfRead i (rfWrite i v s) = v := by
  simp [rfRead_eq]

theorem rfRead_rfWrite_ne (i j : RegIx) (v : Byte) (s : State) (h : j ≠ i) :
    rfRead j (rfWrite i v s) = rfRead j s := by
  have hv : i.val ≠ j.val := fun e => h (Fin.ext e.symm)
  simp [rfRead_eq, Vector.getElem_set_ne, hv]

@[simp] theorem rfRead_memWrite (i : RegIx) (a : Addr) (v : Byte) (s : State) :
    rfRead i (memWrite a v s) = rfRead i s := rfl
@[simp] theorem rfRead_setPc (i : RegIx) (target : Addr) (s : State) : rfRead i (setPc target s) = rfRead i s := rfl
@[simp] theorem rfRead_emit (i : RegIx) (v : Byte) (s : State) : rfRead i (emit v s) = rfRead i s := rfl
@[simp] theorem rfRead_setHalted (i : RegIx) (s : State) : rfRead i (setHalted s) = rfRead i s := rfl
@[simp] theorem rfRead_raise (i : RegIx) (c : Condition) (v : Byte) (s : State) :
    rfRead i (raise c v s) = rfRead i s := rfl

/-! ### stack_pointer_management -/

theorem sp_eq (s : State) : sp s = s.x[7] := rfl

theorem spDec_eq (s : State) : spDec s = rfWrite spIndex (sp s - 1) s := rfl

theorem spInc_eq (s : State) : spInc s = rfWrite spIndex (sp s + 1) s := rfl

@[simp] theorem sp_spDec (s : State) : sp (spDec s) = sp s - 1 := rfRead_rfWrite_same _ _ _

@[simp] theorem sp_spInc (s : State) : sp (spInc s) = sp s + 1 := rfRead_rfWrite_same _ _ _

/-- All of `push_byte`: the stack pointer is one less and the byte is at the new stack pointer. -/
theorem pushByte_eq (v : Byte) (s : State) :
    pushByte v s = memWrite (sp s - 1) v (rfWrite spIndex (sp s - 1) s) := by
  simp [pushByte, storeTop, spDec_eq, sp]

theorem loadTop_eq (s : State) : loadTop s = memRead s.x[7] s := rfl

/-! ### pc_logic -/

theorem pcLogic_loop (ir : Byte) (s : State) (h : selfadv ir = false) :
    pcLogic ir s = setPc (nextPc ir s) s := by
  simp [pcLogic, h]

theorem pcLogic_self (ir : Byte) (s : State) (h : selfadv ir = true) : pcLogic ir s = s := by
  simp [pcLogic, h]

/-- `pc_logic` writes `pc` and nothing else. -/
theorem pcLogic_frame (ir : Byte) (s : State) : ∃ target, pcLogic ir s = setPc target s := by
  by_cases h : selfadv ir
  · exact ⟨s.pc, by rw [pcLogic_self ir s h]; rfl⟩
  · exact ⟨nextPc ir s, pcLogic_loop ir s (by simpa using h)⟩

/-! ### The register-index check -/

theorem withReg_legal (v : Byte) (k : RegIx → Handled) (h : v.toNat < 8) : withReg v k = k ⟨v.toNat, h⟩ := by
  simp [withReg, h]

theorem withReg_illegal (v : Byte) (k : RegIx → Handled) (h : 8 ≤ v.toNat) :
    withReg v k = .error ⟨.registerIndex, v⟩ := by
  simp [withReg, Nat.not_lt.mpr h]

/-- All that the check can yield: the continuation on a register, or the condition with the operand byte. -/
theorem withReg_cases (v : Byte) (k : RegIx → Handled) :
    (∃ h : v.toNat < 8, withReg v k = k ⟨v.toNat, h⟩) ∨
    (8 ≤ v.toNat ∧ withReg v k = .error ⟨.registerIndex, v⟩) := by
  by_cases h : v.toNat < 8
  · exact .inl ⟨h, withReg_legal v k h⟩
  · exact .inr ⟨Nat.not_lt.mp h, withReg_illegal v k (Nat.not_lt.mp h)⟩

theorem policyInstr_fault (i : Instr) : policyInstr .fault i = i := by
  cases i <;> rfl

/-! ### The alu block -/

theorem aluApply_add (a b : RegIx) (s : State) :
    aluApply .add a b s = .ok (rfWrite a (rfRead a s + rfRead b s) s) := rfl

theorem aluApply_mul (a b : RegIx) (s : State) :
    aluApply .mul a b s = .ok (rfWrite a (rfRead a s * rfRead b s) s) := rfl

/-! ### The end of an instruction -/

@[simp] theorem finish_ok (i : Instr) (s t : State) : finish i s (.ok t) = .next (pcLogic i.opcodeByte t) := rfl

@[simp] theorem finish_error (i : Instr) (s : State) (r : Raised) :
    finish i s (.error r) = .next (raise r.condition r.info s) := rfl

/-- Everything the end of an instruction can answer. -/
theorem finish_cases {i : Instr} {s t : State} {h : Handled} (ht : finish i s h = .next t) :
    (∃ u, h = .ok u ∧ t = pcLogic i.opcodeByte u) ∨
    (∃ r, h = .error r ∧ t = raise r.condition r.info s) := by
  cases h with
  | ok u => exact .inl ⟨u, rfl, by simpa using ht.symm⟩
  | error r => exact .inr ⟨r, rfl, by simpa using ht.symm⟩

/-! ### The advance of each instruction, from its opcode byte's bit fields -/

theorem selfadv_byteOf (h : Handler) : selfadv (opcodes.byteOf h) = h.selfAdvancing := by
  cases h <;> decide

theorem ilen_byteOf (h : Handler) :
    (ilen (opcodes.byteOf h)).zeroExtend 8 = BitVec.ofNat 8 (h.operandCount + 1) := by
  cases h <;> decide

theorem selfadv_opcodeByte (i : Instr) : selfadv i.opcodeByte = i.handler.selfAdvancing :=
  selfadv_byteOf i.handler

theorem nextPc_opcodeByte (i : Instr) (s : State) :
    nextPc i.opcodeByte s = s.pc + BitVec.ofNat 8 (i.handler.operandCount + 1) :=
  congrArg (s.pc + ·) (ilen_byteOf i.handler)

/-- A finished handler of an instruction that is not self-advancing: `pc` moves on by the instruction's length. -/
theorem finish_loop (i : Instr) (s t : State) (h : i.handler.selfAdvancing = false) :
    finish i s (.ok t) = .next (setPc (t.pc + BitVec.ofNat 8 (i.handler.operandCount + 1)) t) := by
  rw [finish_ok, pcLogic_loop _ _ ((selfadv_opcodeByte i).trans h), nextPc_opcodeByte]

/-- A finished handler of CALL or RETURN: `pc` is as the handler left it. -/
theorem finish_self (i : Instr) (s t : State) (h : i.handler.selfAdvancing = true) :
    finish i s (.ok t) = .next t := by
  rw [finish_ok, pcLogic_self _ _ ((selfadv_opcodeByte i).trans h)]

end Sys2Proof.Machine
end

