-- ==== Sys2Proof/Laws/PerInstr.lean ====
section
/-! SUPPORT. Statements made once per instruction. `EncodedLength`: under every opcode table that meets 30_encoding.md R55,
an instruction's encoding has as many bytes as the decoder's `ilen` says, its opcode byte carries its advance mode, and
both are the ones of the spec's own table (so that `Instr.opcodeByte` serves for every table). -/

namespace Sys2Proof.Laws.EncodedLength

/-- What the family says of an instruction. -/
def Statement (i : Instr) : Prop :=
  ∀ t : OpcodeTable, t.valid = true →
    (encode t i).length = (ilen (t.byteOf i.handler)).toNat ∧
    ilen (t.byteOf i.handler) = ilen i.opcodeByte ∧
    selfadv (t.byteOf i.handler) = selfadv i.opcodeByte

/-- Every row of a valid table carries its handler's operand count and advance mode. -/
theorem row_fits (t : OpcodeTable) (ht : t.valid = true) (h : Handler) :
    (nops (t.byteOf h)).toNat = h.operandCount ∧ selfadv (t.byteOf h) = h.selfAdvancing := by
  have hall := (Bool.and_eq_true_iff.mp ht).2
  have hmem : (t.byteOf h, h) ∈ t.rows := by
    cases h <;> simp [OpcodeTable.rows, OpcodeTable.byteOf]
  simpa [rowFits] using List.all_eq_true.mp hall _ hmem

/-- The bit fields of the spec's own opcode byte. -/
theorem default_fits (h : Handler) :
    (nops (opcodes.byteOf h)).toNat = h.operandCount ∧ selfadv (opcodes.byteOf h) = h.selfAdvancing :=
  row_fits opcodes (by decide) h

theorem length_eq (t : OpcodeTable) (i : Instr) : (encode t i).length = i.handler.operandCount + 1 := by
  cases i <;> rfl

theorem ilen_toNat (ir : Byte) : (ilen ir).toNat = (nops ir).toNat + 1 := by
  have h : ∀ n : BitVec 2, (n.zeroExtend 3 + 1).toNat = n.toNat + 1 := by decide
  exact h (nops ir)

theorem all (i : Instr) : Statement i := by
  intro t ht
  have h1 := row_fits t ht i.handler
  have h2 := default_fits i.handler
  refine ⟨?_, ?_, ?_⟩
  · rw [length_eq, ilen_toNat, h1.1]
  · apply BitVec.eq_of_toNat_eq
    rw [ilen_toNat, ilen_toNat, h1.1, Instr.opcodeByte, h2.1]
  · rw [h1.2, Instr.opcodeByte, h2.2]

theorem halt : Statement .halt := all _
theorem loadImmediate (a v : Byte) : Statement (.loadImmediate a v) := all _
theorem print (a : Byte) : Statement (.print a) := all _
theorem multiply (a b : Byte) : Statement (.multiply a b) := all _
theorem add (a b : Byte) : Statement (.add a b) := all _
theorem push (a : Byte) : Statement (.push a) := all _
theorem pop (a : Byte) : Statement (.pop a) := all _
theorem call (a : Byte) : Statement (.call a) := all _
theorem ret : Statement .ret := all _

end Sys2Proof.Laws.EncodedLength
end

