-- ==== Sys2Proof/Laws/Step.lean ====
section
/-! SUPPORT. Everything one pass of the loop can do, said once: the inversion lemma of `cycle`. -/

namespace Sys2Proof.Machine

theorem cycle_halted (p : Params) (s : State) (h : s.ctl = .halted) : cycle p s = .next s := by
  simp [cycle, h]

theorem cycle_faulted (p : Params) (s : State) (h : s.ctl = .faulted) : cycle p s = .next s := by
  simp [cycle, h]

theorem cycle_running (p : Params) (s : State) (h : s.ctl = .running) : cycle p s = dispatch p (fetch s) s := by
  simp [cycle, h]

/-- Everything a pass can answer: the state held, an invalid opcode handled by the policy, or the decoded instruction
run. -/
theorem cycle_cases {p : Params} {s t : State} (ht : cycle p s = .next t) :
    (s.ctl ≠ .running ∧ t = s) ∨
    (s.ctl = .running ∧ ∃ ir, decode p.opcodes (fetch s).ir (fetch s).opa (fetch s).opb = .error (.invalidOpcode ir) ∧
      t = onInvalidOpcode p.invalidOpcode ir s) ∨
    (s.ctl = .running ∧ ∃ i, decode p.opcodes (fetch s).ir (fetch s).opa (fetch s).opb = .ok i ∧
      exec (policyInstr p.regIndex i) s = .next t) := by
  cases hc : s.ctl with
  | halted => rw [cycle_halted p s hc] at ht; exact .inl ⟨by simp, by simpa using ht.symm⟩
  | faulted => rw [cycle_faulted p s hc] at ht; exact .inl ⟨by simp, by simpa using ht.symm⟩
  | running =>
    rw [cycle_running p s hc, dispatch] at ht
    cases hd : decode p.opcodes (fetch s).ir (fetch s).opa (fetch s).opb with
    | error e =>
      cases e with
      | invalidOpcode ir => rw [hd] at ht; exact .inr (.inl ⟨rfl, ir, rfl, by simpa using ht.symm⟩)
    | ok i => rw [hd] at ht; exact .inr (.inr ⟨rfl, i, rfl, ht⟩)

theorem fetch_eq (s : State) : fetch s = ⟨memRead s.pc s, memRead (s.pc + 1) s, memRead (s.pc + 2) s⟩ := rfl

/-- A fetch depends on memory and `pc` alone. -/
theorem fetch_congr (s t : State) (hm : t.mem = s.mem) (hp : t.pc = s.pc) : fetch t = fetch s := by
  simp only [fetch_eq, memRead_eq, hm, hp]

/-- Everything one step of the machine can answer (`cycle_cases` under the default parameters). -/
theorem step_cases {s t : State} (ht : step s = .next t) :
    (s.ctl ≠ .running ∧ t = s) ∨
    (s.ctl = .running ∧ ∃ ir, decode opcodes (fetch s).ir (fetch s).opa (fetch s).opb = .error (.invalidOpcode ir) ∧
      t = raise .invalidOpcode ir s) ∨
    (s.ctl = .running ∧ ∃ i, decode opcodes (fetch s).ir (fetch s).opa (fetch s).opb = .ok i ∧ exec i s = .next t) := by
  rcases cycle_cases ht with h | h | ⟨h, i, hi, he⟩
  · exact .inl h
  · exact .inr (.inl h)
  · exact .inr (.inr ⟨h, i, hi, by simpa [defaultParams, policyInstr_fault] using he⟩)

end Sys2Proof.Machine
end

