-- ==== Sys2Proof/Tests/Slice0.lean ====
section
/-! SUPPORT. Small tests and the witnesses of the statements' hypotheses. Every expected value comes from spec/: the
encodings of 30_encoding.md, the worked examples of files 41 to 45 and the vectors of 95_test_vectors.md section 2, named
in each comment. -/

namespace Sys2Proof.Tests

open Sys2Proof Sys2Proof.Machine

/-! ### Helpers -/

/-- The reset state with `pc = p` and bytes placed from `p` on. -/
def place (p : Addr) (bytes : List Byte) : State := memWriteList p bytes (setPc p State.reset)

/-- A next state with a property. -/
def after (o : Host.Outcome State Fault Refusal) (f : State → Bool) : Bool :=
  match o with
  | .next t => f t
  | .fault _ => false
  | .refused _ => false

theorem exists_of_after {o : Host.Outcome State Fault Refusal} {f : State → Bool} (h : after o f = true) :
    ∃ t, o = .next t ∧ f t = true := by
  cases o with
  | next t => exact ⟨t, rfl, h⟩
  | fault r => exact absurd h (by simp [after])
  | refused r => exact absurd h (by simp [after])

/-- The step faults the machine with this record and leaves register 7 and `pc` alone. -/
def faultsWith (s : State) (cause : BitVec 2) (info : Byte) : Bool :=
  after (step s) fun t => t.ctl == .faulted && t.fcause == cause && t.finfo == info && t.pc == s.pc && t.x == s.x

/-! ### WellFormed refuses an operand of 8 in each register position (R53) -/

theorem test_wf_legal : (Instr.multiply 7 7).wellFormed = true := by decide
theorem test_wf_immediate_unchecked : (Instr.loadImmediate 7 9).wellFormed = true := by decide
theorem test_ill_loadImmediate : (Instr.loadImmediate 8 0).wellFormed = false := by decide
theorem test_ill_print : (Instr.print 255).wellFormed = false := by decide
theorem test_ill_multiply : (Instr.multiply 8 0).wellFormed = false ∧ (Instr.multiply 0 8).wellFormed = false := by decide
theorem test_ill_add : (Instr.add 8 0).wellFormed = false ∧ (Instr.add 0 8).wellFormed = false := by decide
theorem test_ill_push : (Instr.push 8).wellFormed = false := by decide
theorem test_ill_pop : (Instr.pop 16).wellFormed = false := by decide
theorem test_ill_call : (Instr.call 9).wellFormed = false := by decide

/-- An opcode table that gives HALT the two-operand byte 0x81 violates R55, and so does one with a repeated byte. -/
theorem test_ill_table : ({ opcodes with halt := 0x81 }).valid = false ∧ ({ opcodes with pop := 0x45 }).valid = false := by
  decide

/-! ### Decoding of words written out bit by bit (R54), later bytes in higher bits -/

theorem test_decode_halt : decodeTableWord 8 0b00000001 = some .halt := by decide
theorem test_decode_loadImmediate :
    decodeTableWord 24 0b11001000_00000011_10000010 = some (.loadImmediate 0x03 0xC8) := by decide
theorem test_decode_print : decodeTableWord 16 0b00000101_01000111 = some (.print 0x05) := by decide
theorem test_decode_multiply : decodeTableWord 24 0b00000001_00000110_10100010 = some (.multiply 0x06 0x01) := by decide
theorem test_decode_add : decodeTableWord 24 0b00000111_00000010_10100000 = some (.add 0x02 0x07) := by decide
theorem test_decode_push : decodeTableWord 16 0b00000100_01000101 = some (.push 0x04) := by decide
theorem test_decode_pop : decodeTableWord 16 0b00010000_01000110 = some (.pop 0x10) := by decide
theorem test_decode_call : decodeTableWord 16 0b00001001_01010000 = some (.call 0x09) := by decide
theorem test_decode_ret : decodeTableWord 8 0b00010001 = some .ret := by decide
/-- 95_test_vectors.md section 2.11 and S10. -/
theorem test_decode_invalid :
    decodeTableWord 8 0x00 = none ∧ decodeTableWord 24 0x0100A1 = none ∧ decodeTableWord 24 0xFFFFFF = none ∧
    decodeTableWord 8 0x10 = none ∧ decodeTableWord 8 0xC0 = none ∧ decodeTableWord 8 0x02 = none ∧
    decodeTableWord 8 0x81 = none := by decide
/-- A word placed after reset is what the next step runs. -/
theorem test_withFetchWord :
    after (step (State.reset.withFetchWord 24 0x080082)) (fun t => t.x[0] == 8 && t.pc == 3) = true := by decide

/-! ### One step of each instruction (95_test_vectors.md section 2) -/

/-- V-HLT-2. -/
theorem test_halt_wraps_pc : after (step (place 0xFF [0x01])) (fun t => t.ctl == .halted && t.pc == 0x00) = true := by
  decide
/-- V-LDI-5. -/
theorem test_loadImmediate_wraps :
    after (step (place 0xFE [0x82, 0x02, 0x33])) (fun t => t.x[2] == 0x33 && t.pc == 0x01) = true := by decide
/-- V-LDI-4. -/
theorem test_loadImmediate_operand8 : faultsWith (place 0x10 [0x82, 0x08, 0x05]) 2 0x08 = true := by decide
/-- V-PRN-2. -/
theorem test_print_sp : after (step (place 0 [0x47, 0x07])) (fun t => t.out == [244] && t.pc == 0x02) = true := by decide
/-- V-PRN-3. -/
theorem test_print_operandFF : faultsWith (place 0 [0x47, 0xFF]) 2 0xFF = true := by decide
/-- V-MUL-9. -/
theorem test_multiply_sp :
    after (step (rfWrite 0 2 (place 0 [0xA2, 0x07, 0x00]))) (fun t => t.x[7] == 0xE8 && t.pc == 3) = true := by decide
/-- V-MUL-7: operand `a` is reported first. -/
theorem test_multiply_first_operand : faultsWith (place 0 [0xA2, 0x08, 0x09]) 2 0x08 = true := by decide
/-- V-ADD-7. -/
theorem test_add_wraps :
    after (step (rfWrite 0 0x10 (place 0 [0xA0, 0x00, 0x07]))) (fun t => t.x[0] == 0x04 && t.x[7] == 0xF4) = true := by
  decide
/-- V-ADD-6. -/
theorem test_add_second_operand : faultsWith (rfWrite 0 1 (place 0 [0xA0, 0x00, 0x08])) 2 0x08 = true := by decide
/-- V-PUSH-4. -/
theorem test_push_over_itself :
    after (step (rfWrite 1 0xAB (rfWrite 7 0x22 (place 0x20 [0x45, 0x01]))))
      (fun t => t.x[7] == 0x21 && memRead 0x21 t == 0xAB && t.pc == 0x22) = true := by decide
/-- V-PUSH-3. -/
theorem test_push_sp :
    after (step (place 0 [0x45, 0x07])) (fun t => t.x[7] == 0xF3 && memRead 0xF3 t == 0xF3) = true := by decide
/-- V-POP-5. -/
theorem test_pop_reads_code :
    after (step (rfWrite 7 0x10 (place 0x10 [0x46, 0x00]))) (fun t => t.x[0] == 0x46 && t.x[7] == 0x11 && t.pc == 0x12)
      = true := by decide
/-- V-POP-4. -/
theorem test_pop_sp :
    after (step (memWrite 0xF0 0x30 (rfWrite 7 0xF0 (place 0 [0x46, 0x07])))) (fun t => t.x[7] == 0x31) = true := by
  decide
/-- V-CALL-3. -/
theorem test_call_wraps :
    after (step (rfWrite 2 0x40 (place 0xFF [0x50, 0x02])))
      (fun t => t.x[7] == 0xF3 && memRead 0xF3 t == 0x01 && t.pc == 0x40) = true := by decide
/-- V-CALL-4. -/
theorem test_call_sp :
    after (step (place 0x10 [0x50, 0x07])) (fun t => memRead 0xF3 t == 0x12 && t.pc == 0xF3) = true := by decide
/-- V-RET-3. -/
theorem test_ret_wraps_sp :
    after (step (memWrite 0xFF 0x55 (rfWrite 7 0xFF (place 0x0E [0x11])))) (fun t => t.pc == 0x55 && t.x[7] == 0x00)
      = true := by decide
/-- V-RET-4. -/
theorem test_ret_ignores_operands :
    after (step (memWrite 0xF3 0x0E (rfWrite 7 0xF3 (place 0x0E [0x11, 0xFF, 0xFF]))))
      (fun t => t.pc == 0x0E && t.x[7] == 0xF4 && t.ctl == .running) = true := by decide
/-- V-INV-6: operand bytes of an invalid opcode are not checked. -/
theorem test_invalid_opcode : faultsWith (place 0x05 [0x02, 0x09]) 1 0x02 = true := by decide
/-- V-ALU-3, V-ALU-4, V-ALU-6, V-ALU-7. -/
theorem test_alu :
    alu .sub 3 5 = some 254 ∧ alu .sub 0 1 = some 255 ∧ alu .mul 255 255 = some 1 ∧ alu .unsupported 0 0 = none := by
  decide
/-- The canonical form: a write of 0x00 takes its entry away. -/
theorem test_memory_canonical :
    (memWrite 0x10 0 (memWrite 0x05 7 (memWrite 0x10 9 State.reset))).mem = [(0x05, 7)] := by decide

/-! ### Witnesses: concrete states and operands that meet the hypotheses of the statements -/

/-- A valid table other than the default: HALT at 0x00. -/
def otherTable : OpcodeTable := { opcodes with halt := 0x00 }

/-- Parameters with both alternative policies. -/
def otherParams : Params := { defaultParams with invalidOpcode := .spin, regIndex := .mask3 }

theorem witness_DecodeOfEncode :
    opcodes.valid = true ∧ otherTable.valid = true ∧
    decodeBytes otherTable (encode otherTable (.push 0xFF) ++ [0x01]) = .ok (.push 0xFF) := by decide
theorem witness_DecoderBitFields :
    (decoder opcodes 0x50).selfadv = true ∧ (decoder opcodes 0xC0).selfadv = false := by decide
theorem witness_ResetValues : (6 : RegIx) ≠ spIndex ∧ rfRead 6 State.reset = 0x00 := by decide
theorem witness_EncodeOfDecode : decode otherTable 0x00 0x05 0x06 = .ok .halt := by decide
theorem witness_HandlerByWholeByteMatch :
    otherTable.valid = true ∧ (decoder otherTable 0x00).handler = some .halt ∧ otherTable.byteOf .halt = 0x00 := by decide
theorem witness_InvalidOpcodeBytes : 192 ≤ (0xC0 : Byte).toNat ∧ handlerOf opcodes 0xC0 = none := by decide
theorem witness_MemoryContract :
    (0xFF : Addr) ≠ 0x00 ∧
    ∃ s, boot defaultParams [0x82] = .next s ∧ (memRead 0x00 s == 0x82 && memRead 0x01 s == 0x00) = true :=
  ⟨by decide, exists_of_after (by decide)⟩
theorem witness_RegisterFileContract : (7 : RegIx) ≠ 0 ∧ rfRead 7 (rfWrite 0 5 State.reset) = 0xF4 := by decide
theorem witness_StackBlockContract :
    (0xF4 : Addr) ≠ State.reset.x[7] - 1 ∧ memRead 0xF3 (pushByte 9 State.reset) = 9 := by decide
theorem witness_AluSumAndProduct :
    (7 : Byte).toNat < 8 ∧ (0 : Byte).toNat < 8 ∧
    after (exec (.add 7 0) (rfWrite 0 200 State.reset)) (fun t => t.x[7] == 188) = true ∧
    after (exec (.multiply 0 7) (rfWrite 0 2 State.reset)) (fun t => t.x[0] == 0xE8) = true := by decide
theorem witness_UnsupportedOperationUnreachable :
    (∃ t, exec .halt { State.reset with fcause := 3 } = .next t ∧ (t.fcause == 3) = true) ∧
    (∃ t, step { place 0 [0x01] with fcause := 3 } = .next t ∧ (t.fcause == 3) = true) ∧
    ∃ s, boot defaultParams [0x01] = .next s ∧ (s.fcause == 0) = true :=
  ⟨exists_of_after (by decide), exists_of_after (by decide), exists_of_after (by decide)⟩
theorem witness_HaltEffect :
    (∃ t, exec .halt State.reset = .next t ∧ (t.ctl != State.reset.ctl && after (step t) (fun u => u == t)) = true) ∧
    ∃ t, exec (.push 8) State.reset = .next t ∧ (t.ctl != State.reset.ctl) = true :=
  ⟨exists_of_after (by decide), exists_of_after (by decide)⟩
theorem witness_LoadImmediateEffect :
    (7 : Byte).toNat < 8 ∧ after (exec (.loadImmediate 7 0xFF) State.reset) (fun t => t.x[7] == 0xFF) = true ∧
    8 ≤ (8 : Byte).toNat ∧ after (exec (.loadImmediate 8 0) State.reset) (fun t => t.ctl == .faulted) = true := by decide
theorem witness_PrintEffect :
    (7 : Byte).toNat < 8 ∧ after (exec (.print 7) State.reset) (fun t => t.out == [0xF4]) = true ∧
    8 ≤ (8 : Byte).toNat ∧ after (exec (.print 8) State.reset) (fun t => t.out == []) = true := by decide
theorem witness_MultiplyEffect :
    (7 : Byte).toNat < 8 ∧ after (exec (.multiply 7 7) State.reset) (fun t => t.x[7] == 0x90) = true ∧
    8 ≤ (8 : Byte).toNat ∧ after (exec (.multiply 8 7) State.reset) (fun t => t.finfo == 8) = true ∧
    after (exec (.multiply 7 9) State.reset) (fun t => t.finfo == 9) = true := by decide
theorem witness_AddEffect :
    (7 : Byte).toNat < 8 ∧ after (exec (.add 7 7) State.reset) (fun t => t.x[7] == 0xE8) = true ∧
    8 ≤ (8 : Byte).toNat ∧ after (exec (.add 8 9) State.reset) (fun t => t.finfo == 8) = true ∧
    after (exec (.add 7 8) State.reset) (fun t => t.finfo == 8) = true := by decide
theorem witness_PushEffect :
    (7 : Byte).toNat < 8 ∧ after (exec (.push 7) (rfWrite 7 0 State.reset)) (fun t => memRead 0xFF t == 0xFF) = true ∧
    8 ≤ (8 : Byte).toNat ∧ after (exec (.push 8) State.reset) (fun t => t.x[7] == 0xF4) = true := by decide
theorem witness_PopEffect :
    (6 : Byte).toNat < 8 ∧ after (exec (.pop 6) (memWrite 0xF4 3 State.reset)) (fun t => t.x[6] == 3) = true ∧
    8 ≤ (8 : Byte).toNat ∧ after (exec (.pop 8) State.reset) (fun t => t.x[7] == 0xF4) = true := by decide
theorem witness_CallEffect :
    (7 : Byte).toNat < 8 ∧ after (exec (.call 7) State.reset) (fun t => t.pc == 0xF3) = true ∧
    8 ≤ (8 : Byte).toNat ∧ after (exec (.call 8) State.reset) (fun t => t.pc == 0) = true := by decide
theorem witness_RegisterResultFrame :
    (∃ t, exec (.add 7 6) State.reset = .next t ∧ (t.x[6] == 0) = true) ∧ (Instr.add 7 6).wellFormed = true ∧
    (∃ t, exec (.multiply 7 8) State.reset = .next t ∧ (t.x == State.reset.x) = true) ∧
    (Instr.multiply 7 8).wellFormed = false :=
  ⟨exists_of_after (by decide), by decide, exists_of_after (by decide), by decide⟩
theorem witness_HaltPrintFrame :
    (∃ t, exec .halt State.reset = .next t ∧ (t.x == State.reset.x) = true) ∧
    ∃ t, exec (.print 7) State.reset = .next t ∧ (t.ctl == .running) = true :=
  ⟨exists_of_after (by decide), exists_of_after (by decide)⟩
theorem witness_StoreFrame :
    (∃ t, exec (.push 7) State.reset = .next t ∧ (memRead 0xF4 t == 0) = true) ∧
    (0xF4 : Addr) ≠ sp (spDec State.reset) ∧
    ∃ t, exec (.call 8) State.reset = .next t ∧ (t.x == State.reset.x) = true :=
  ⟨exists_of_after (by decide), by decide, exists_of_after (by decide)⟩
theorem witness_LoadFrame :
    (∃ t, exec (.pop 7) State.reset = .next t ∧ (t.x[6] == 0) = true) ∧
    (∃ t, exec (.pop 8) State.reset = .next t ∧ (t.x == State.reset.x) = true) ∧
    ∃ t, exec .ret State.reset = .next t ∧ (t.x[6] == 0) = true :=
  ⟨exists_of_after (by decide), exists_of_after (by decide), exists_of_after (by decide)⟩
theorem witness_PcLogicAdvance :
    (0xC0 : Byte).toNat / 16 % 2 = 0 ∧ (0x50 : Byte).toNat / 16 % 2 = 1 ∧
    (Instr.loadImmediate 7 9).wellFormed = true ∧ (Instr.loadImmediate 7 9).handler ≠ .call ∧
    (Instr.loadImmediate 7 9).handler ≠ .ret := by decide
theorem witness_IllegalOperandRaises : (Instr.add 7 8).wellFormed = false := by decide
theorem witness_LegalOperandsRaiseNothing : (Instr.add 7 7).wellFormed = true ∧ Instr.halt.wellFormed = true := by decide
theorem witness_StepRunsDecodedInstruction :
    (place 0xFF [0x47, 0x07]).ctl = .running ∧ current (place 0xFF [0x47, 0x07]) = .ok (.print 7) ∧
    decode otherParams.opcodes 0x47 0x0F 0x00 = .ok (.print 0x0F) ∧
    after (cycle otherParams (place 0 [0x47, 0x0F])) (fun t => t.out == [0xF4]) = true := by decide
theorem witness_StepIsTheTransitionOfR82 :
    (place 0 [0x45, 0x07]).ctl = .running ∧
    after (step (place 0 [0x45, 0x07])) (fun t => t == r82Step (place 0 [0x45, 0x07])) = true := by decide
theorem witness_InvalidOpcodeStep :
    State.reset.ctl = .running ∧ handlerOf opcodes (memRead State.reset.pc State.reset) = none := by decide
theorem witness_StoppedMachineHoldsState :
    ({ State.reset with ctl := .halted }).ctl ≠ .running ∧ ({ State.reset with ctl := .faulted }).ctl ≠ .running ∧
    ∃ t, core.run 1 (place 0 [0x01]) = .next t ∧ (t.ctl != .running) = true :=
  ⟨by decide, by decide, exists_of_after (by decide)⟩
theorem witness_ControlTransitions :
    (∃ t, step (place 0 [0x01]) = .next t ∧ (t.ctl == .halted) = true) ∧
    (∃ t, step State.reset = .next t ∧ (t.ctl == .faulted) = true) ∧
    (∃ t, step (place 0 [0x46, 0x08]) = .next t ∧ (t.ctl == .faulted) = true) ∧
    ∃ t, step (place 0 [0x11]) = .next t ∧ (t.ctl == .running) = true :=
  ⟨exists_of_after (by decide), exists_of_after (by decide), exists_of_after (by decide), exists_of_after (by decide)⟩
theorem witness_UnusedFetchedBytesIgnored :
    (place 0 [0x01]).ctl = .running ∧ current (place 0 [0x01]) = .ok .halt ∧
    (nops (memRead 0 (place 0 [0x01]))).toNat < 1 ∧
    current (place 0 [0x45, 0x07]) = .ok (.push 7) ∧ (nops (memRead 0 (place 0 [0x45, 0x07]))).toNat < 2 := by decide
theorem witness_OutputOnlyAppendedByPrint :
    ∃ t, step (place 0 [0x47, 0x07]) = .next t ∧ (t.out == [0xF4]) = true :=
  exists_of_after (by decide)
theorem witness_ObservedStateNotReadBack :
    ∃ t, step (place 0 [0x47, 0x00]) = .next t ∧ (t.out == [0]) = true :=
  exists_of_after (by decide)
theorem witness_MemoryWrittenOnlyByPushAndCall :
    ∃ t, step (place 0x10 [0x50, 0x00]) = .next t ∧ (memRead 0xF3 t != memRead 0xF3 (place 0x10 [0x50, 0x00])) = true :=
  exists_of_after (by decide)
theorem witness_RegistersWrittenOnlyByTable :
    (∃ t, step (place 0 [0x82, 0x06, 0x01]) = .next t ∧ (rfRead 6 t != 0) = true) ∧
    ∃ t, step (place 0 [0x11]) = .next t ∧ (rfRead 7 t != 0xF4) = true :=
  ⟨exists_of_after (by decide), exists_of_after (by decide)⟩
/-- V-PUSH-5. -/
theorem witness_NextFetchSeesStore :
    (1 : Byte).toNat < 8 ∧ (rfWrite 7 0x23 (place 0x20 [0x45, 0x01])).ctl = .running ∧
    current (rfWrite 7 0x23 (place 0x20 [0x45, 0x01])) = .ok (.push 1) ∧
    (rfWrite 7 0x23 (place 0x20 [0x45, 0x01])).x[7] - 1 = (0x20 : Addr) + 2 := by decide
/-- Both clauses: PUSH 6, POP 0; and PUSH 7, POP 7 (V-ST-7). -/
theorem witness_StackLaw :
    (6 : Byte).toNat < 7 ∧ (0 : Byte).toNat < 7 ∧
    (place 0 [0x45, 0x06, 0x46, 0x00]).ctl = .running ∧
    current (place 0 [0x45, 0x06, 0x46, 0x00]) = .ok (.push 6) ∧
    memRead 2 (place 0 [0x45, 0x06, 0x46, 0x00]) = 0x46 ∧ memRead 3 (place 0 [0x45, 0x06, 0x46, 0x00]) = 0 ∧
    (place 0 [0x45, 0x06, 0x46, 0x00]).x[7] - 1 ≠ 2 ∧ (place 0 [0x45, 0x06, 0x46, 0x00]).x[7] - 1 ≠ 3 ∧
    (7 : Byte).toNat < 8 ∧ current (place 0 [0x45, 0x07, 0x46, 0x07]) = .ok (.push 7) ∧
    memRead 2 (place 0 [0x45, 0x07, 0x46, 0x07]) = 0x46 ∧ memRead 3 (place 0 [0x45, 0x07, 0x46, 0x07]) = 7 ∧
    (place 0 [0x45, 0x07, 0x46, 0x07]).x[7] - 1 ≠ 2 ∧ (place 0 [0x45, 0x07, 0x46, 0x07]).x[7] - 1 ≠ 3 := by decide
theorem witness_CallReturnLaw :
    (6 : Byte).toNat < 7 ∧ (rfWrite 6 2 (place 0 [0x50, 0x06, 0x11])).ctl = .running ∧
    current (rfWrite 6 2 (place 0 [0x50, 0x06, 0x11])) = .ok (.call 6) ∧
    memRead 2 (rfWrite 6 2 (place 0 [0x50, 0x06, 0x11])) = 0x11 ∧
    (rfWrite 6 2 (place 0 [0x50, 0x06, 0x11])).x[7] - 1 ≠ 2 := by decide
theorem witness_StackLastInFirstOut :
    ([1, 2, 3] : List Byte).length ≤ 256 ∧ popped 3 (stackOps [some 1, some 2, some 3] State.reset) = [3, 2, 1] := by
  decide
/-- Both clauses at their boundary: 256 bytes and 257. -/
theorem witness_BootLoadsImage :
    (List.replicate 256 (0x11 : Byte)).length ≤ 256 ∧ 256 < (List.replicate 257 (0x11 : Byte)).length := by
  rw [List.length_replicate, List.length_replicate]; decide
theorem witness_SpinPolicyRepeats :
    otherParams.invalidOpcode = .spin ∧ State.reset.ctl = .running ∧
    handlerOf otherParams.opcodes (memRead State.reset.pc State.reset) = none := by decide
theorem witness_MaskPolicyNeverFaults :
    otherParams.regIndex = .mask3 ∧ (place 0 [0x45, 0x0F]).ctl = .running ∧
    handlerOf otherParams.opcodes (memRead 0 (place 0 [0x45, 0x0F])) ≠ none ∧
    after (cycle otherParams (place 0 [0x45, 0x0F])) (fun t => memRead 0xF3 t == 0xF3) = true := by decide
theorem witness_ResetMeetsInvariant : ∃ s, boot defaultParams [0x01, 0x00, 0xFF] = .next s ∧ s.inv = true :=
  exists_of_after (by decide)
theorem witness_StepKeepsInvariant :
    (place 0 [0x82, 0x08, 0x05]).inv = true ∧
    (∃ t, step (place 0 [0x82, 0x08, 0x05]) = .next t ∧ (t.inv && t.ctl == .faulted) = true) ∧
    (place 0 [0x01]).inv = true ∧ ∃ t, step (place 0 [0x01]) = .next t ∧ (t.inv && t.ctl == .halted) = true :=
  ⟨by decide, exists_of_after (by decide), by decide, exists_of_after (by decide)⟩

end Sys2Proof.Tests
end

section
/-! Memory (20_memory.md R31): what a read returns after a write, after an image was loaded, and after reset. -/

namespace Sys2Proof.Machine

/-! ### Reset and the loaded image -/

@[simp] theorem memRead_reset (a : Addr) : memRead a State.reset = 0x00 := rfl

/-- `REG_RESET` sets registers only: memory is what reset leaves, for every parameter. -/
@[simp] theorem memRead_resetState (p : Params) (a : Addr) : memRead a (resetState p) = 0x00 := rfl

/-- Boot answers with a state only for an image that fits in memory, and that state is reset with the image loaded. -/
theorem boot_eq_next_iff (p : Params) (image : List Byte) (s : State) :
    boot p image = .next s ↔ image.length ≤ memSize ∧ s = loadImage image (resetState p) := by
  unfold boot
  split
  · next fits => simp [fits, eq_comm]
  · next tooLong => simp [tooLong]

/-- The image is loaded from address 0, so a cell's address is its place in the image. -/
theorem memRead_loadImage (image : List Byte) (a : Addr) (s : State) (fits : image.length ≤ memSize) :
    memRead a (loadImage image s) = image.getD a.toNat (memRead a s) := by
  have fromZero : (a - 0).toNat = a.toNat := by simp
  rw [loadImage, memRead_memWriteList image 0 a s fits]
  simp only [fromZero]
  by_cases inside : a.toNat < image.length
  · rw [dif_pos inside, List.getD_eq_getElem _ _ inside]
  · rw [dif_neg inside, List.getD_eq_default _ _ (Nat.le_of_not_lt inside)]

/-- A booted machine's memory is the image, then zeros. -/
theorem memRead_of_boot {p : Params} {image : List Byte} {s : State} (h : boot p image = .next s) (a : Addr) :
    memRead a s = image.getD a.toNat 0x00 := by
  obtain ⟨fits, rfl⟩ := (boot_eq_next_iff p image s).mp h
  rw [memRead_loadImage image a _ fits, memRead_resetState]

/-! ### The obligation -/

/-- Settles O8, from the read-after-write laws and the reads of a booted machine. -/
theorem memoryContract : Obligations.MemoryContract := by
  unfold Obligations.MemoryContract
  refine ⟨fun s a v => ⟨memRead_memWrite_same a v s, fun b hb => memRead_memWrite_ne a b v s hb, ?frame⟩,
    fun p image s a h => memRead_of_boot h a, memRead_reset⟩
  case frame => rfl

end Sys2Proof.Machine
end

section
/-! The decoder (30_encoding.md R57, 40_core_cycle.md R77, R78): the values of its bit fields, and its verdict, which is
the dispatch table's answer on the opcode byte. -/

namespace Sys2Proof.Machine

/-! ### Bit fields as numbers (R77) -/

theorem nops_toNat (ir : Byte) : (nops ir).toNat = ir.toNat / 64 := by
  have isTwoBits : ir.toNat / 64 < 2 ^ 2 := by omega
  calc (nops ir).toNat = ir.toNat / 64 % 2 ^ 2 := by
        rw [nops, BitVec.extractLsb'_toNat, Nat.shiftRight_eq_div_pow]
    _ = ir.toNat / 64 := Nat.mod_eq_of_lt isTwoBits

theorem ilen_toNat (ir : Byte) : (ilen ir).toNat = ir.toNat / 64 + 1 := by
  rw [Laws.EncodedLength.ilen_toNat, nops_toNat]

theorem selfadv_eq_true_iff (ir : Byte) : selfadv ir = true ↔ ir.toNat / 16 % 2 = 1 := by
  rw [selfadv, ← BitVec.testBit_toNat, Nat.testBit_eq_decide_div_mod_eq, decide_eq_true_iff]

/-! ### The verdict (R57, R78) -/

@[simp] theorem handler_instr (h : Handler) (opa opb : Byte) : (h.instr opa opb).handler = h := by
  cases h <;> rfl

theorem decode_of_handlerOf_some {t : OpcodeTable} {ir : Byte} {h : Handler} (found : handlerOf t ir = some h)
    (opa opb : Byte) : decode t ir opa opb = .ok (h.instr opa opb) := by
  simp only [decode, decoder, found]

theorem decode_of_handlerOf_none {t : OpcodeTable} {ir : Byte} (absent : handlerOf t ir = none) (opa opb : Byte) :
    decode t ir opa opb = .error (.invalidOpcode ir) := by
  simp only [decode, decoder, absent]

/-- Bytes decode exactly when the opcode byte has a handler: the operand bytes have no say. -/
theorem exists_decode_eq_ok_iff (t : OpcodeTable) (ir opa opb : Byte) :
    (∃ i, decode t ir opa opb = .ok i) ↔ ∃ h, handlerOf t ir = some h := by
  cases verdict : handlerOf t ir with
  | some h => simp [decode_of_handlerOf_some verdict]
  | none => simp [decode_of_handlerOf_none verdict]

/-- Every byte gets one of the nine handlers and an instruction of it, or the verdict invalid. -/
theorem decoder_total (t : OpcodeTable) (ir opa opb : Byte) :
    (∃ h, handlerOf t ir = some h ∧ ∃ i, decode t ir opa opb = .ok i ∧ i.handler = h) ∨
      (handlerOf t ir = none ∧ decode t ir opa opb = .error (.invalidOpcode ir)) := by
  cases verdict : handlerOf t ir with
  | some h => exact .inl ⟨h, rfl, _, decode_of_handlerOf_some verdict opa opb, handler_instr h opa opb⟩
  | none => exact .inr ⟨rfl, decode_of_handlerOf_none verdict opa opb⟩

/-! ### The obligation -/

/-- Settles O4, from the verdict's two cases and the values of the bit fields. -/
theorem decoderTotalOnEveryByte : Obligations.DecoderTotalOnEveryByte := by
  unfold Obligations.DecoderTotalOnEveryByte
  intro t ir opa opb
  refine ⟨decoder_total t ir opa opb, nops_toNat ir, ilen_toNat ir, selfadv_eq_true_iff ir,
    fun opa' opb' => ?sameValidity⟩
  case sameValidity => rw [exists_decode_eq_ok_iff, exists_decode_eq_ok_iff]

end Sys2Proof.Machine
end

section
/-! pc_logic (40_core_cycle.md R77, R79) in numbers: what the opcode byte's bit fields make of `pc`. -/

namespace Sys2Proof.Machine

theorem nextPc_eq (ir : Byte) (s : State) : nextPc ir s = s.pc + BitVec.ofNat 8 (ilen ir).toNat := by
  rw [nextPc, BitVec.ofNat_toNat]

/-- The address after an opcode byte of the spec's table, from its row's operand count. -/
theorem nextPc_byteOf (h : Handler) (s : State) :
    nextPc (opcodes.byteOf h) s = s.pc + BitVec.ofNat 8 (h.operandCount + 1) :=
  congrArg (s.pc + ·) (ilen_byteOf h)

/-- Bit 4 clear, as a number. -/
theorem selfadv_eq_false_iff (ir : Byte) : selfadv ir = false ↔ ir.toNat / 16 % 2 = 0 := by
  rw [← Bool.not_eq_true, selfadv_eq_true_iff]
  omega

/-! ### The obligation -/

/-- Settles O5, from the values of the bit fields and the two cases of `pc_logic`. -/
theorem decoderBitFields : Obligations.DecoderBitFields := by
  unfold Obligations.DecoderBitFields
  intro t ir
  refine ⟨nops_toNat ir, Laws.EncodedLength.ilen_toNat ir, selfadv_eq_true_iff ir,
    fun s => ⟨pcLogic_self ir s, fun loop => ?advance⟩⟩
  case advance => exact (pcLogic_loop ir s loop).trans (congrArg (setPc · s) (nextPc_eq ir s))

end Sys2Proof.Machine
end

section
/-! What `exec` answers, one equation per instruction with legal register operands (files 41 to 45), and one for every
instruction with an illegal one (10_state.md R15, 60_exceptions.md R167). -/

namespace Sys2Proof.Machine

/-! ### The register operands -/

theorem isRegIndex_eq_true_iff (v : Byte) : isRegIndex v = true ↔ v.toNat < 8 := by
  rw [isRegIndex, decide_eq_true_iff]

/-- The first register operand that names no register, in the order of the check (R167). -/
def firstIllegal (operands : List Byte) : Option Byte := operands.find? (fun o => !isRegIndex o)

@[simp] theorem firstIllegal_nil : firstIllegal [] = none := rfl

theorem firstIllegal_cons (a : Byte) (rest : List Byte) :
    firstIllegal (a :: rest) = if 8 ≤ a.toNat then some a else firstIllegal rest := by
  by_cases ha : a.toNat < 8
  · rw [if_neg (Nat.not_le.mpr ha)]
    exact List.find?_cons_of_neg (by simp [isRegIndex, ha])
  · rw [if_pos (Nat.not_lt.mp ha)]
    exact List.find?_cons_of_pos (by simp [isRegIndex, ha])

theorem firstIllegal_eq_none_iff (i : Instr) : firstIllegal i.regOperands = none ↔ i.wellFormed = true := by
  simp [firstIllegal, Instr.wellFormed]

/-- An operand of a well-formed instruction names a register. -/
theorem operand_legal {i : Instr} {v : Byte} (wf : i.wellFormed = true) (hv : v ∈ i.regOperands) :
    v.toNat < 8 :=
  (isRegIndex_eq_true_iff v).mp (List.all_eq_true.mp wf v hv)

theorem withReg_of_firstIllegal {a v : Byte} (k : RegIx → Handled) (found : firstIllegal [a] = some v) :
    withReg a k = .error ⟨.registerIndex, v⟩ := by
  rw [firstIllegal_cons] at found
  split at found
  · next ha =>
    cases found
    exact withReg_illegal a k ha
  · cases found

theorem withRegs_of_firstIllegal {a b v : Byte} (k : RegIx → RegIx → Handled)
    (found : firstIllegal [a, b] = some v) : withRegs a b k = .error ⟨.registerIndex, v⟩ := by
  rw [firstIllegal_cons] at found
  split at found
  · next ha =>
    cases found
    exact withReg_illegal a _ ha
  · next ha => rw [withRegs, withReg_legal a _ (Nat.not_le.mp ha), withReg_of_firstIllegal _ found]

theorem withRegs_legal {a b : Byte} (k : RegIx → RegIx → Handled) (ha : a.toNat < 8) (hb : b.toNat < 8) :
    withRegs a b k = k ⟨a.toNat, ha⟩ ⟨b.toNat, hb⟩ := by
  rw [withRegs, withReg_legal a _ ha, withReg_legal b _ hb]

/-! ### exec with an illegal operand -/

/-- An illegal register operand makes the whole instruction a `RegisterIndex` condition on the state it starts from. -/
theorem exec_of_firstIllegal {i : Instr} {v : Byte} (s : State) (found : firstIllegal i.regOperands = some v) :
    exec i s = .next (raise .registerIndex v s) := by
  cases i with
  | halt => cases found
  | ret => cases found
  | loadImmediate a w => exact congrArg (finish _ s) (withReg_of_firstIllegal _ found)
  | print a => exact congrArg (finish _ s) (withReg_of_firstIllegal _ found)
  | push a => exact congrArg (finish _ s) (withReg_of_firstIllegal _ found)
  | pop a => exact congrArg (finish _ s) (withReg_of_firstIllegal _ found)
  | call a => exact congrArg (finish _ s) (withReg_of_firstIllegal _ found)
  | multiply a b => exact congrArg (finish _ s) (withRegs_of_firstIllegal _ found)
  | add a b => exact congrArg (finish _ s) (withRegs_of_firstIllegal _ found)

/-! ### exec with legal operands -/

section
variable (s : State)

theorem exec_halt : exec .halt s = .next (setPc (s.pc + 1) (setHalted s)) :=
  finish_loop .halt s _ rfl

theorem exec_loadImmediate {a : Byte} (v : Byte) (ha : a.toNat < 8) :
    exec (.loadImmediate a v) s = .next (setPc (s.pc + 3) (rfWrite ⟨a.toNat, ha⟩ v s)) := by
  rw [exec, execLoadImmediate, withReg_legal a _ ha, finish_loop _ _ _ rfl]
  rfl

theorem exec_print {a : Byte} (ha : a.toNat < 8) :
    exec (.print a) s = .next (setPc (s.pc + 2) (emit (rfRead ⟨a.toNat, ha⟩ s) s)) := by
  rw [exec, execPrint, withReg_legal a _ ha, finish_loop _ _ _ rfl]
  rfl

theorem exec_multiply {a b : Byte} (ha : a.toNat < 8) (hb : b.toNat < 8) :
    exec (.multiply a b) s = .next (setPc (s.pc + 3)
      (rfWrite ⟨a.toNat, ha⟩ (rfRead ⟨a.toNat, ha⟩ s * rfRead ⟨b.toNat, hb⟩ s) s)) := by
  rw [exec, execMultiply, withRegs_legal _ ha hb, aluApply_mul, finish_loop _ _ _ rfl]
  rfl

theorem exec_add {a b : Byte} (ha : a.toNat < 8) (hb : b.toNat < 8) :
    exec (.add a b) s = .next (setPc (s.pc + 3)
      (rfWrite ⟨a.toNat, ha⟩ (rfRead ⟨a.toNat, ha⟩ s + rfRead ⟨b.toNat, hb⟩ s) s)) := by
  rw [exec, execAdd, withRegs_legal _ ha hb, aluApply_add, finish_loop _ _ _ rfl]
  rfl

theorem exec_push {a : Byte} (ha : a.toNat < 8) :
    exec (.push a) s = .next (setPc (s.pc + 2) (pushByte (rfRead ⟨a.toNat, ha⟩ (spDec s)) s)) := by
  rw [exec, execPush, withReg_legal a _ ha, finish_loop _ _ _ rfl]
  rfl

theorem exec_pop {a : Byte} (ha : a.toNat < 8) :
    exec (.pop a) s = .next (setPc (s.pc + 2) (spInc (rfWrite ⟨a.toNat, ha⟩ (loadTop s) s))) := by
  rw [exec, execPop, withReg_legal a _ ha, finish_loop _ _ _ rfl]
  rfl

theorem exec_call {a : Byte} (ha : a.toNat < 8) :
    exec (.call a) s = .next
      (setPc (rfRead ⟨a.toNat, ha⟩ (pushByte (s.pc + 2) s)) (pushByte (s.pc + 2) s)) := by
  rw [exec, execCall, withReg_legal a _ ha, finish_self _ _ _ rfl, nextPc_opcodeByte]
  rfl

theorem exec_ret : exec .ret s = .next (spInc (setPc (loadTop s) s)) :=
  finish_self .ret s _ rfl

end

/-! ### The obligation -/

/-- An instruction that leaves the advance to the loop completes at the address after its last byte. -/
theorem exec_pc_of_loop {i : Instr} (wf : i.wellFormed = true) (loop : i.handler.selfAdvancing = false) (s : State) :
    ∃ t, exec i s = .next t ∧ t.pc = s.pc + BitVec.ofNat 8 (i.handler.operandCount + 1) := by
  cases i with
  | halt => exact ⟨_, exec_halt s, rfl⟩
  | loadImmediate a v => exact ⟨_, exec_loadImmediate s v (operand_legal wf (.head _)), rfl⟩
  | print a => exact ⟨_, exec_print s (operand_legal wf (.head _)), rfl⟩
  | multiply a b =>
    exact ⟨_, exec_multiply s (operand_legal wf (.head _)) (operand_legal wf (.tail _ (.head _))), rfl⟩
  | add a b =>
    exact ⟨_, exec_add s (operand_legal wf (.head _)) (operand_legal wf (.tail _ (.head _))), rfl⟩
  | push a => exact ⟨_, exec_push s (operand_legal wf (.head _)), rfl⟩
  | pop a => exact ⟨_, exec_pop s (operand_legal wf (.head _)), rfl⟩
  | call a => cases loop
  | ret => cases loop

/-- CALL and RETURN are the only self-advancing instructions (30_encoding.md R55). -/
theorem selfAdvancing_eq_false {h : Handler} (notCall : h ≠ .call) (notRet : h ≠ .ret) :
    h.selfAdvancing = false := by
  cases h with
  | call => exact absurd rfl notCall
  | ret => exact absurd rfl notRet
  | _ => rfl

/-- Settles O28, from the two cases of `pc_logic` and the address each instruction completes at. -/
theorem pcLogicAdvance : Obligations.PcLogicAdvance := by
  unfold Obligations.PcLogicAdvance
  refine ⟨fun ir s bit4 => ?loop, fun ir s bit4 => pcLogic_self ir s ((selfadv_eq_true_iff ir).mpr bit4),
    fun i wf notCall notRet s => ?instruction⟩
  case loop =>
    rw [pcLogic_loop ir s ((selfadv_eq_false_iff ir).mpr bit4), nextPc_eq, ilen_toNat]
    rfl
  case instruction =>
    obtain ⟨t, completes, pc⟩ := exec_pc_of_loop wf (selfAdvancing_eq_false notCall notRet) s
    rw [← nextPc_opcodeByte] at pc
    exact ⟨t, completes, pc.trans (nextPc_eq i.opcodeByte s)⟩

end Sys2Proof.Machine
end

section
/-! `step` against the transcription `r82Step` of the whole transition (40_core_cycle.md R82). -/

namespace Sys2Proof.Machine

/-! ### The step of a running machine, by the verdict on its opcode byte -/

theorem rows_eq_map_byteOf (t : OpcodeTable) :
    t.rows = [Handler.halt, .loadImmediate, .print, .multiply, .add, .push, .pop, .call, .ret].map
      (fun h => (t.byteOf h, h)) := rfl

theorem byteOf_of_handlerOf_some {t : OpcodeTable} {ir : Byte} {h : Handler} (found : handlerOf t ir = some h) :
    t.byteOf h = ir := by
  obtain ⟨row, hit, rfl⟩ := Option.map_eq_some_iff.mp found
  have matched : row.1 = ir := by simpa using List.find?_some hit
  have isRow := List.mem_of_find?_eq_some hit
  rw [rows_eq_map_byteOf] at isRow
  obtain ⟨h, -, rfl⟩ := List.mem_map.mp isRow
  exact matched

theorem handlerOf_eq_none_iff (t : OpcodeTable) (ir : Byte) :
    handlerOf t ir = none ↔ ir ∉ t.rows.map Prod.fst := by
  simp only [handlerOf, Option.map_eq_none_iff, List.find?_eq_none, beq_iff_eq, List.mem_map, not_exists, not_and]

theorem step_of_invalidOpcode {s : State} (running : s.ctl = .running)
    (absent : handlerOf opcodes (memRead s.pc s) = none) :
    step s = .next (raise .invalidOpcode (memRead s.pc s) s) := by
  rw [step, cycle_running _ s running, dispatch, fetch_eq]
  simp only [defaultParams, decode_of_handlerOf_none absent]
  rfl

theorem step_of_opcode {s : State} {h : Handler} (running : s.ctl = .running)
    (found : handlerOf opcodes (memRead s.pc s) = some h) :
    step s = exec (h.instr (memRead (s.pc + 1) s) (memRead (s.pc + 2) s)) s := by
  rw [step, cycle_running _ s running, dispatch, fetch_eq]
  simp only [defaultParams, decode_of_handlerOf_some found, policyInstr_fault]

/-! ### The register file of the transcription -/

theorem rfRead_eq_r82Reg {v : Byte} (hv : v.toNat < 8) (s : State) : rfRead ⟨v.toNat, hv⟩ s = r82Reg s.x v := by
  simp [rfRead_eq, r82Reg, hv]

theorem rfWrite_eq_r82SetReg {v : Byte} (hv : v.toNat < 8) (w : Byte) (s : State) :
    rfWrite ⟨v.toNat, hv⟩ w s = { s with x := r82SetReg s.x v w } := by
  simp [rfWrite, r82SetReg, Vector.setIfInBounds, Vector.set, Array.setIfInBounds, hv]

theorem sp_eq_r82Reg (s : State) : sp s = r82Reg s.x 7 := rfRead_eq_r82Reg (v := 7) (by decide) s

theorem rfWrite_spIndex_eq (w : Byte) (s : State) :
    rfWrite spIndex w s = { s with x := r82SetReg s.x 7 w } := rfWrite_eq_r82SetReg (v := 7) (by decide) w s

theorem loadTop_eq_r82 (s : State) : loadTop s = s.mem.read (r82Reg s.x 7) := by
  rw [← sp_eq_r82Reg]
  rfl

theorem spDec_eq_r82 (s : State) : spDec s = { s with x := r82SetReg s.x 7 (r82Reg s.x 7 - 1) } := by
  rw [spDec_eq, rfWrite_spIndex_eq, sp_eq_r82Reg]

theorem spInc_eq_r82 (s : State) : spInc s = { s with x := r82SetReg s.x 7 (r82Reg s.x 7 + 1) } := by
  rw [spInc_eq, rfWrite_spIndex_eq, sp_eq_r82Reg]

theorem pushByte_eq_r82 (v : Byte) (s : State) :
    pushByte v s = { spDec s with mem := s.mem.write (r82Reg (spDec s).x 7) v } := by
  rw [pushByte, storeTop, sp_eq_r82Reg]
  rfl

/-! ### The operand check of the transcription -/

/-- The operand byte R82 raises `RegisterIndex` for, by opcode byte: the two middle branches of `r82Step`. -/
def r82Illegal (ir opa opb : Byte) : Option Byte :=
  if ir ∈ ([0x82, 0x47, 0xA2, 0xA0, 0x45, 0x46, 0x50] : List Byte) ∧ 8 ≤ opa.toNat then some opa
  else if ir ∈ ([0xA2, 0xA0] : List Byte) ∧ 8 ≤ opb.toNat then some opb
  else none

theorem r82Illegal_eq_none_iff (ir opa opb : Byte) :
    r82Illegal ir opa opb = none ↔
      ¬(ir ∈ ([0x82, 0x47, 0xA2, 0xA0, 0x45, 0x46, 0x50] : List Byte) ∧ 8 ≤ opa.toNat) ∧
      ¬(ir ∈ ([0xA2, 0xA0] : List Byte) ∧ 8 ≤ opb.toNat) := by
  rw [r82Illegal]
  split
  · next illegalA => exact ⟨nofun, fun legal => absurd illegalA legal.1⟩
  · next legalA => simp only [legalA, ite_eq_right_iff, reduceCtorEq, not_false_eq_true, true_and]

/-- R82 checks the operands that the instruction has, in the model's order. -/
theorem r82Illegal_byteOf (h : Handler) (opa opb : Byte) :
    r82Illegal (opcodes.byteOf h) opa opb = firstIllegal (h.instr opa opb).regOperands := by
  cases h with
  | halt | ret => rfl
  | _ => simp [r82Illegal, opcodes, OpcodeTable.byteOf, Handler.instr, Instr.regOperands, firstIllegal_cons]

/-! ### The branches of the transcription -/

theorem byteOf_mem_r82 (h : Handler) :
    opcodes.byteOf h ∈ ([0x01, 0x82, 0x47, 0xA2, 0xA0, 0x45, 0x46, 0x50, 0x11] : List Byte) := by
  cases h <;> decide

theorem r82Step_of_invalidOpcode {s : State} (absent : handlerOf opcodes (memRead s.pc s) = none) :
    r82Step s = raise .invalidOpcode (memRead s.pc s) s :=
  if_pos ((handlerOf_eq_none_iff opcodes _).mp absent)

/-- The two middle branches of R82: the operand check. -/
theorem r82Step_of_illegal {s : State} {h : Handler} {v : Byte} (opcode : opcodes.byteOf h = memRead s.pc s)
    (illegal : r82Illegal (memRead s.pc s) (memRead (s.pc + 1) s) (memRead (s.pc + 2) s) = some v) :
    r82Step s = raise .registerIndex v s := by
  have known := not_not_intro (opcode ▸ byteOf_mem_r82 h)
  rw [r82Illegal] at illegal
  split at illegal
  · next illegalA =>
    cases illegal
    exact (if_neg known).trans (if_pos illegalA)
  · next legalA =>
    split at illegal
    · next illegalB =>
      cases illegal
      exact (if_neg known).trans ((if_neg legalA).trans (if_pos illegalB))
    · cases illegal

/-- The last branches of R82: the handler's case, and the advance of the loop. -/
theorem r82Step_of_legal {s : State} {h : Handler} (opcode : opcodes.byteOf h = memRead s.pc s)
    (legal : r82Illegal (memRead s.pc s) (memRead (s.pc + 1) s) (memRead (s.pc + 2) s) = none) :
    r82Step s =
      if h.selfAdvancing then r82Case (memRead s.pc s) (memRead (s.pc + 1) s) (memRead (s.pc + 2) s) s
      else setPc (nextPc (memRead s.pc s) s)
        (r82Case (memRead s.pc s) (memRead (s.pc + 1) s) (memRead (s.pc + 2) s) s) := by
  have known := not_not_intro (opcode ▸ byteOf_mem_r82 h)
  have bit4 : selfadv (memRead s.pc s) = h.selfAdvancing := opcode ▸ selfadv_byteOf h
  obtain ⟨legalA, legalB⟩ := (r82Illegal_eq_none_iff _ _ _).mp legal
  refine (if_neg known).trans ((if_neg legalA).trans ((if_neg legalB).trans ?_))
  cases adv : h.selfAdvancing with
  | true =>
    have bit4Set : selfadv (memRead s.pc s) ≠ false := by simp [bit4, adv]
    exact if_neg (mt (selfadv_eq_false_iff _).mpr bit4Set)
  | false =>
    rw [nextPc_eq, ilen_toNat]
    exact if_pos ((selfadv_eq_false_iff _).mp (bit4.trans adv))

/-! ### The handlers of the transcription -/

/-- With legal operands, an instruction answers what R82's case for its opcode gives, with the loop's advance. -/
theorem exec_instr_eq_r82Case (h : Handler) {opa opb : Byte} (wf : (h.instr opa opb).wellFormed = true) (s : State) :
    exec (h.instr opa opb) s = .next
      (if h.selfAdvancing then r82Case (opcodes.byteOf h) opa opb s
       else setPc (s.pc + BitVec.ofNat 8 (h.operandCount + 1)) (r82Case (opcodes.byteOf h) opa opb s)) := by
  cases h with
  | halt => exact exec_halt s
  | loadImmediate =>
    rw [Handler.instr, exec_loadImmediate s opb (operand_legal wf (.head _)), rfWrite_eq_r82SetReg]
    rfl
  | print =>
    rw [Handler.instr, exec_print s (operand_legal wf (.head _)), rfRead_eq_r82Reg]
    rfl
  | multiply =>
    rw [Handler.instr, exec_multiply s (operand_legal wf (.head _)) (operand_legal wf (.tail _ (.head _))),
      rfWrite_eq_r82SetReg, rfRead_eq_r82Reg, rfRead_eq_r82Reg]
    rfl
  | add =>
    rw [Handler.instr, exec_add s (operand_legal wf (.head _)) (operand_legal wf (.tail _ (.head _))),
      rfWrite_eq_r82SetReg, rfRead_eq_r82Reg, rfRead_eq_r82Reg]
    rfl
  | push =>
    rw [Handler.instr, exec_push s (operand_legal wf (.head _)), pushByte_eq_r82, rfRead_eq_r82Reg, spDec_eq_r82]
    rfl
  | pop =>
    rw [Handler.instr, exec_pop s (operand_legal wf (.head _)), rfWrite_eq_r82SetReg, spInc_eq_r82,
      loadTop_eq_r82]
    rfl
  | call =>
    rw [Handler.instr, exec_call s (operand_legal wf (.head _)), rfRead_eq_r82Reg, pushByte_eq_r82, spDec_eq_r82]
    rfl
  | ret =>
    rw [Handler.instr, exec_ret, spInc_eq_r82, loadTop_eq_r82]
    rfl

/-! ### The obligation -/

/-- On a fetched opcode the transcription answers what the instruction does. -/
theorem exec_instr_eq_r82Step {s : State} {h : Handler} (opcode : opcodes.byteOf h = memRead s.pc s) :
    exec (h.instr (memRead (s.pc + 1) s) (memRead (s.pc + 2) s)) s = .next (r82Step s) := by
  cases check : firstIllegal (h.instr (memRead (s.pc + 1) s) (memRead (s.pc + 2) s)).regOperands with
  | some v =>
    rw [exec_of_firstIllegal s check]
    rw [← r82Illegal_byteOf, opcode] at check
    rw [r82Step_of_illegal opcode check]
  | none =>
    rw [exec_instr_eq_r82Case h ((firstIllegal_eq_none_iff _).mp check)]
    rw [← r82Illegal_byteOf, opcode] at check
    rw [r82Step_of_legal opcode check, ← opcode, nextPc_byteOf]

/-- Settles O33, by the verdict on the opcode byte, then by the operand check, then by the handler. -/
theorem stepIsTheTransitionOfR82 : Obligations.StepIsTheTransitionOfR82 := by
  unfold Obligations.StepIsTheTransitionOfR82
  intro s running
  cases verdict : handlerOf opcodes (memRead s.pc s) with
  | none => rw [step_of_invalidOpcode running verdict, r82Step_of_invalidOpcode verdict]
  | some h => rw [step_of_opcode running verdict, exec_instr_eq_r82Step (byteOf_of_handlerOf_some verdict)]

end Sys2Proof.Machine
end

section
/-! HALT (41_halt.md R100): its effect, the held state after it, and `ctl` under every other instruction. -/

namespace Sys2Proof.Machine

/-! ### A stopped machine (40_core_cycle.md R74) -/

theorem step_of_not_running {s : State} (stopped : s.ctl ≠ .running) : step s = .next s := by
  cases control : s.ctl with
  | running => exact absurd control stopped
  | halted => exact cycle_halted _ s control
  | faulted => exact cycle_faulted _ s control

/-- What HALT leaves is stopped: a step holds it. -/
theorem step_of_exec_halt {s t : State} (halts : exec .halt s = .next t) : step t = .next t := by
  rw [exec_halt] at halts
  cases halts
  exact step_of_not_running (by simp)

/-! ### The control state under an instruction -/

/-- A well-formed instruction completes and records no condition, and `ctl` is what it was unless it is HALT. -/
theorem exec_control_of_wellFormed {i : Instr} (wf : i.wellFormed = true) (s : State) :
    ∃ t, exec i s = .next t ∧ t.fcause = s.fcause ∧ t.finfo = s.finfo ∧
      t.ctl = if i = .halt then .halted else s.ctl := by
  cases i with
  | halt => exact ⟨_, exec_halt s, rfl, rfl, rfl⟩
  | loadImmediate a v => exact ⟨_, exec_loadImmediate s v (operand_legal wf (.head _)), rfl, rfl, rfl⟩
  | print a => exact ⟨_, exec_print s (operand_legal wf (.head _)), rfl, rfl, rfl⟩
  | multiply a b =>
    exact ⟨_, exec_multiply s (operand_legal wf (.head _)) (operand_legal wf (.tail _ (.head _))), rfl, rfl, rfl⟩
  | add a b =>
    exact ⟨_, exec_add s (operand_legal wf (.head _)) (operand_legal wf (.tail _ (.head _))), rfl, rfl, rfl⟩
  | push a => exact ⟨_, exec_push s (operand_legal wf (.head _)), rfl, rfl, rfl⟩
  | pop a => exact ⟨_, exec_pop s (operand_legal wf (.head _)), rfl, rfl, rfl⟩
  | call a => exact ⟨_, exec_call s (operand_legal wf (.head _)), rfl, rfl, rfl⟩
  | ret => exact ⟨_, exec_ret s, rfl, rfl, rfl⟩

/-- Without a fatal condition, HALT alone changes `ctl`. -/
theorem exec_ctl_changed {i : Instr} {s t : State} (runs : exec i s = .next t) (changed : t.ctl ≠ s.ctl) :
    t.ctl = .faulted ∨ i = .halt := by
  cases check : firstIllegal i.regOperands with
  | some v =>
    rw [exec_of_firstIllegal s check] at runs
    cases runs
    exact .inl (raise_ctl s _ v)
  | none =>
    obtain ⟨u, completes, -, -, control⟩ := exec_control_of_wellFormed ((firstIllegal_eq_none_iff i).mp check) s
    rw [runs] at completes
    cases completes
    by_cases isHalt : i = .halt
    · exact .inr isHalt
    · rw [if_neg isHalt] at control
      exact absurd control changed

/-! ### The obligation -/

/-- Settles O14, from the equation of HALT, the held state of a stopped machine, and what instructions do to `ctl`. -/
theorem haltEffect : Obligations.HaltEffect := by
  unfold Obligations.HaltEffect
  refine ⟨fun opa opb => decode_of_handlerOf_some (h := .halt) rfl opa opb, by decide, exec_halt,
    fun s t u halts steps => ?held, fun _ _ _ => exec_ctl_changed⟩
  case held => exact Host.Outcome.next.inj (steps.symm.trans (step_of_exec_halt halts))

end Sys2Proof.Machine
end

section
/-! LOAD_IMMEDIATE and PRINT (42_load_print.md R105, R106): their effects, and that PRINT emits what LOAD_IMMEDIATE
loaded. -/

namespace Sys2Proof.Machine

/-- The first register operand is checked before any other (60_exceptions.md R167). -/
theorem exec_of_illegal_first {i : Instr} {a : Byte} {rest : List Byte} (s : State)
    (operands : i.regOperands = a :: rest) (ha : 8 ≤ a.toNat) :
    exec i s = .next (raise .registerIndex a s) := by
  have found : firstIllegal i.regOperands = some a := by rw [operands, firstIllegal_cons, if_pos ha]
  exact exec_of_firstIllegal s found

/-- PRINT reads the register that LOAD_IMMEDIATE wrote, even register 7: it emits the loaded byte (R106). -/
theorem exec_loadImmediate_print {r : Byte} (v : Byte) (hr : r.toNat < 8) (s : State) :
    ∃ t u, exec (.loadImmediate r v) s = .next t ∧ exec (.print r) t = .next u ∧ u.out = s.out ++ [v] := by
  refine ⟨_, _, exec_loadImmediate s v hr, exec_print _ hr, ?emitted⟩
  case emitted => simp only [setPc_out, emit_out, rfRead_setPc, rfRead_rfWrite_same, rfWrite_out]

/-! ### The obligations -/

/-- Settles O15, from the equation of LOAD_IMMEDIATE on a legal operand and the check that stops an illegal one. -/
theorem loadImmediateEffect : Obligations.LoadImmediateEffect := by
  unfold Obligations.LoadImmediateEffect
  exact ⟨fun a v => decode_of_handlerOf_some (h := .loadImmediate) rfl a v, by decide,
    fun s _ v ha => exec_loadImmediate s v ha, fun s _ _ ha => exec_of_illegal_first s rfl ha⟩

/-- Settles O16, from the equation of PRINT on a legal operand, the check that stops an illegal one, and the read of the
register LOAD_IMMEDIATE wrote. -/
theorem printEffect : Obligations.PrintEffect := by
  unfold Obligations.PrintEffect
  exact ⟨fun a opb => decode_of_handlerOf_some (h := .print) rfl a opb, by decide,
    fun s _ ha => exec_print s ha, fun s _ ha => exec_of_illegal_first s rfl ha,
    fun s _ v hr => exec_loadImmediate_print v hr s⟩

end Sys2Proof.Machine
end

section
/-! ADD and MULTIPLY (43_alu.md R116, R118, R122, R123): the values they leave, exact modulo 256, and their effects. -/

namespace Sys2Proof.Machine

/-- The second register operand is checked when the first one is legal (60_exceptions.md R167). -/
theorem exec_of_illegal_second {i : Instr} {a b : Byte} {rest : List Byte} (s : State)
    (operands : i.regOperands = a :: b :: rest) (ha : a.toNat < 8) (hb : 8 ≤ b.toNat) :
    exec i s = .next (raise .registerIndex b s) := by
  have found : firstIllegal i.regOperands = some b := by
    rw [operands, firstIllegal_cons, if_neg (Nat.not_le.mpr ha), firstIllegal_cons, if_pos hb]
  exact exec_of_firstIllegal s found

/-! ### The values, as numbers -/

/-- `x[a]` holds the byte written to it, whatever `pc` becomes after. -/
theorem setPc_rfWrite_x_same {a : Byte} (ha : a.toNat < 8) (target : Addr) (v : Byte) (s : State) :
    (setPc target (rfWrite ⟨a.toNat, ha⟩ v s)).x[a.toNat] = v :=
  rfRead_rfWrite_same ⟨a.toNat, ha⟩ v s

theorem exec_add_toNat {a b : Byte} (s : State) (ha : a.toNat < 8) (hb : b.toNat < 8) :
    ∃ t, exec (.add a b) s = .next t ∧ t.x[a.toNat].toNat = (s.x[a.toNat].toNat + s.x[b.toNat].toNat) % 256 := by
  refine ⟨_, exec_add s ha hb, ?sum⟩
  case sum =>
    rw [setPc_rfWrite_x_same, rfRead_eq, rfRead_eq]
    exact BitVec.toNat_add _ _

theorem exec_multiply_toNat {a b : Byte} (s : State) (ha : a.toNat < 8) (hb : b.toNat < 8) :
    ∃ t, exec (.multiply a b) s = .next t ∧
      t.x[a.toNat].toNat = (s.x[a.toNat].toNat * s.x[b.toNat].toNat) % 256 := by
  refine ⟨_, exec_multiply s ha hb, ?product⟩
  case product =>
    rw [setPc_rfWrite_x_same, rfRead_eq, rfRead_eq]
    exact BitVec.toNat_mul _ _

/-! ### The obligations -/

/-- Settles O11: byte arithmetic is arithmetic modulo 256, and the first register holds the result after the write, even
when both operands name it. -/
theorem aluSumAndProduct : Obligations.AluSumAndProduct := by
  unfold Obligations.AluSumAndProduct
  exact ⟨fun xv yv => ⟨xv + yv, rfl, BitVec.toNat_add xv yv⟩, fun xv yv => ⟨xv * yv, rfl, BitVec.toNat_mul xv yv⟩,
    fun s _ _ ha hb => exec_add_toNat s ha hb, fun s _ _ ha hb => exec_multiply_toNat s ha hb⟩

/-- Settles O17, from the equation of MULTIPLY on legal operands and the check that stops at the first illegal one. -/
theorem multiplyEffect : Obligations.MultiplyEffect := by
  unfold Obligations.MultiplyEffect
  exact ⟨fun a b => decode_of_handlerOf_some (h := .multiply) rfl a b, by decide,
    fun s _ _ ha hb => exec_multiply s ha hb, fun s _ _ ha => exec_of_illegal_first s rfl ha,
    fun s _ _ ha hb => exec_of_illegal_second s rfl ha hb⟩

/-- Settles O18, from the equation of ADD on legal operands and the check that stops at the first illegal one. -/
theorem addEffect : Obligations.AddEffect := by
  unfold Obligations.AddEffect
  exact ⟨fun a b => decode_of_handlerOf_some (h := .add) rfl a b, by decide,
    fun s _ _ ha hb => exec_add s ha hb, fun s _ _ ha => exec_of_illegal_first s rfl ha,
    fun s _ _ ha hb => exec_of_illegal_second s rfl ha hb⟩

end Sys2Proof.Machine
end

section
/-! PUSH and POP (44_stack.md R134, R135): their effects, register 7 as operand included (R136). -/

namespace Sys2Proof.Machine

/-! ### The state each completes in -/

/-- The byte pushed is `x[a]` after the decrement (R134), so PUSH 7 stores the new pointer. -/
theorem pushByte_rfRead_spDec (i : RegIx) (s : State) :
    pushByte (rfRead i (spDec s)) s = { s with
      x := s.x.set 7 (s.x[7] - 1)
      mem := s.mem.write (s.x[7] - 1) (s.x.set 7 (s.x[7] - 1))[i.val] } := by
  rw [pushByte_eq, spDec_eq, sp_eq, rfRead_eq]
  rfl

/-- The pointer incremented is `x[7]` after the write of `x[a]` (R135), so POP 7 increments the byte it popped. -/
theorem spInc_rfWrite_loadTop (i : RegIx) (s : State) :
    spInc (rfWrite i (loadTop s) s) = { s with
      x := (s.x.set i.val (memRead s.x[7] s)).set 7 ((s.x.set i.val (memRead s.x[7] s))[7] + 1) } := by
  rw [spInc_eq, sp_eq, loadTop_eq]
  rfl

/-! ### The obligations -/

/-- Settles O19, from the equation of PUSH on a legal operand, the state its two statements leave, and the check that
stops an illegal one. -/
theorem pushEffect : Obligations.PushEffect := by
  unfold Obligations.PushEffect
  refine ⟨fun a opb => decode_of_handlerOf_some (h := .push) rfl a opb, by decide, fun s a ha => ?completes,
    fun s _ ha => exec_of_illegal_first s rfl ha⟩
  case completes =>
    rw [exec_push s ha, pushByte_rfRead_spDec]
    rfl

/-- Settles O20, from the equation of POP on a legal operand, the state its two statements leave, and the check that
stops an illegal one. -/
theorem popEffect : Obligations.PopEffect := by
  unfold Obligations.PopEffect
  refine ⟨fun a opb => decode_of_handlerOf_some (h := .pop) rfl a opb, by decide, fun s a ha => ?completes,
    fun s _ ha => exec_of_illegal_first s rfl ha⟩
  case completes =>
    rw [exec_pop s ha, spInc_rfWrite_loadTop]
    rfl

end Sys2Proof.Machine
end

section
/-! CALL and RETURN (45_call_return.md R145, R146): their effects, register 7 as operand of CALL included (R148). -/

namespace Sys2Proof.Machine

/-! ### The state each completes in -/

/-- The state after `push_byte`, field by field: the pointer and the byte under it (44_stack.md R130). -/
theorem pushByte_eq_update (v : Byte) (s : State) :
    pushByte v s = { s with x := s.x.set 7 (s.x[7] - 1), mem := s.mem.write (s.x[7] - 1) v } := by
  rw [pushByte_eq, sp_eq]
  rfl

/-- The target is `x[a]` after the decrement of `x[7]` (R145), so CALL 7 goes to the new pointer. -/
theorem setPc_rfRead_pushByte (i : RegIx) (v : Byte) (s : State) :
    setPc (rfRead i (pushByte v s)) (pushByte v s) = { s with
      x := s.x.set 7 (s.x[7] - 1)
      mem := s.mem.write (s.x[7] - 1) v
      pc := (s.x.set 7 (s.x[7] - 1))[i.val] } := by
  rw [pushByte_eq_update, rfRead_eq]
  rfl

/-- The target is the byte at the old pointer: the read comes before the increment (R146). -/
theorem spInc_setPc_loadTop (s : State) :
    spInc (setPc (loadTop s) s) = { s with pc := memRead s.x[7] s, x := s.x.set 7 (s.x[7] + 1) } := by
  rw [spInc_eq, sp_eq, loadTop_eq]
  rfl

/-! ### The obligations -/

/-- Settles O21, from the equation of CALL on a legal operand, the state its push and its jump leave, and the check that
stops an illegal one. -/
theorem callEffect : Obligations.CallEffect := by
  unfold Obligations.CallEffect
  refine ⟨fun a opb => decode_of_handlerOf_some (h := .call) rfl a opb, by decide, fun s a ha => ?completes,
    fun s _ ha => exec_of_illegal_first s rfl ha⟩
  case completes => rw [exec_call s ha, setPc_rfRead_pushByte]

/-- Settles O22, from the equation of RETURN and the state its two statements leave. -/
theorem returnEffect : Obligations.ReturnEffect := by
  unfold Obligations.ReturnEffect
  refine ⟨fun opa opb => decode_of_handlerOf_some (h := .ret) rfl opa opb, by decide, fun s => ?completes⟩
  case completes => rw [exec_ret, spInc_setPc_loadTop]

end Sys2Proof.Machine
end

section
/-! `UnsupportedOperation` (60_exceptions.md R162): the ALU can raise it, and neither an instruction nor a step does. -/

namespace Sys2Proof.Machine

/-! ### At the ALU (43_alu.md R119) -/

theorem alu_eq_none_iff (op : AluOp) (xv yv : Byte) : alu op xv yv = none ↔ op = .unsupported := by
  cases op <;> simp [alu]

theorem aluApply_unsupported (a b : RegIx) (s : State) :
    aluApply .unsupported a b s = .error ⟨.unsupportedOperation, 3⟩ := rfl

/-! ### The recorded cause -/

/-- `RegisterIndex` is the only condition an instruction raises (R163). -/
theorem exec_fcause_cases {i : Instr} {s t : State} (runs : exec i s = .next t) :
    t.fcause = s.fcause ∨ t.fcause = conditionCode .registerIndex := by
  cases check : firstIllegal i.regOperands with
  | some v =>
    rw [exec_of_firstIllegal s check] at runs
    cases runs
    exact .inr (raise_fcause s .registerIndex v)
  | none =>
    obtain ⟨u, completes, cause, -, -⟩ := exec_control_of_wellFormed ((firstIllegal_eq_none_iff i).mp check) s
    rw [runs] at completes
    cases completes
    exact .inl cause

theorem fcause_eq_three_of_exec {i : Instr} {s t : State} (runs : exec i s = .next t) (unsupported : t.fcause = 3) :
    s.fcause = 3 := by
  rcases exec_fcause_cases runs with kept | raised
  · exact kept ▸ unsupported
  · exact absurd (raised.symm.trans unsupported) (by decide)

/-- A step holds the state, raises `InvalidOpcode`, or runs an instruction: none of them brings cause 3 about. -/
theorem fcause_eq_three_of_step {s t : State} (steps : step s = .next t) (unsupported : t.fcause = 3) :
    s.fcause = 3 := by
  rcases step_cases steps with ⟨-, rfl⟩ | ⟨-, ir, -, rfl⟩ | ⟨-, i, -, runs⟩
  · exact unsupported
  · exact absurd ((raise_fcause s .invalidOpcode ir).symm.trans unsupported) (by decide)
  · exact fcause_eq_three_of_exec runs unsupported

/-- The loader writes memory alone, so a booted machine has the cause of reset (10_state.md R25). -/
theorem fcause_of_boot {p : Params} {image : List Byte} {s : State} (boots : boot p image = .next s) :
    s.fcause = 0 := by
  obtain ⟨-, rfl⟩ := (boot_eq_next_iff p image s).mp boots
  rw [loadImage, memWriteList_frame]
  rfl

/-! ### The obligation -/

/-- Settles O13, from the ALU's cases, the fatal-condition entry on the one it has no result for, and the causes that
instructions, steps and reset leave. -/
theorem unsupportedOperationUnreachable : Obligations.UnsupportedOperationUnreachable := by
  unfold Obligations.UnsupportedOperationUnreachable
  refine ⟨alu_eq_none_iff, fun i s a b => ?entry, fun _ _ _ => fcause_eq_three_of_exec,
    fun _ _ => fcause_eq_three_of_step, fun _ _ _ => fcause_of_boot⟩
  case entry =>
    rw [aluApply_unsupported, finish_error]
    rfl

end Sys2Proof.Machine
end

section
/-! Decoding and encoding (30_encoding.md R54, R55, R78): under a valid table an opcode byte belongs to one handler, and
`decode` and `encode` are inverse to each other. -/

namespace Sys2Proof.Machine

/-! ### The dispatch table of a valid choice of opcodes -/

theorem mem_rows (t : OpcodeTable) (h : Handler) : (t.byteOf h, h) ∈ t.rows := by
  cases h <;> simp [OpcodeTable.rows, OpcodeTable.byteOf]

/-- The opcode bytes of a valid table are distinct (R55 item 1), so a byte belongs to one row. -/
theorem byteOf_injective {t : OpcodeTable} (valid : t.valid = true) : Function.Injective t.byteOf := by
  intro h h' same
  have distinct : (t.rows.map Prod.fst).Nodup := of_decide_eq_true (Bool.and_eq_true_iff.mp valid).1
  have sameRow := List.inj_on_of_nodup_map distinct (mem_rows t h) (mem_rows t h') same
  exact congrArg Prod.snd sameRow

/-- Dispatch is a match on the whole opcode byte (R51, R78). -/
theorem handlerOf_eq_some_iff {t : OpcodeTable} (valid : t.valid = true) (ir : Byte) (h : Handler) :
    handlerOf t ir = some h ↔ t.byteOf h = ir := by
  refine ⟨byteOf_of_handlerOf_some, ?found⟩
  case found =>
    rintro rfl
    cases verdict : handlerOf t (t.byteOf h) with
    | none => exact absurd (List.mem_map_of_mem (mem_rows t h)) ((handlerOf_eq_none_iff t _).mp verdict)
    | some h' => rw [byteOf_injective valid (byteOf_of_handlerOf_some verdict)]

/-! ### decode and encode -/

theorem decode_eq_ok_iff (t : OpcodeTable) (ir opa opb : Byte) (i : Instr) :
    decode t ir opa opb = .ok i ↔ ∃ h, handlerOf t ir = some h ∧ h.instr opa opb = i := by
  cases verdict : handlerOf t ir with
  | some h => simp [decode_of_handlerOf_some verdict]
  | none => simp [decode_of_handlerOf_none verdict]

/-- A handler on the bytes after an encoding's opcode byte takes up exactly the instruction's operands. -/
theorem decodeBytes_encode {t : OpcodeTable} (valid : t.valid = true) (i : Instr) (following : List Byte) :
    decodeBytes t (encode t i ++ following) = .ok i := by
  have found : handlerOf t (t.byteOf i.handler) = some i.handler := (handlerOf_eq_some_iff valid _ _).mpr rfl
  refine (decode_of_handlerOf_some found _ _).trans (congrArg Except.ok ?operands)
  case operands => cases i <;> rfl

/-- The fetched bytes are the encoding of a handler's instruction, then the bytes beyond its operands (R76). -/
theorem exists_encode_instr_append (t : OpcodeTable) (h : Handler) (opa opb : Byte) :
    ∃ following, [t.byteOf h, opa, opb] = encode t (h.instr opa opb) ++ following := by
  cases h with
  | halt | ret => exact ⟨[opa, opb], rfl⟩
  | print | push | pop | call => exact ⟨[opb], rfl⟩
  | loadImmediate | multiply | add => exact ⟨[], rfl⟩

/-! ### The obligations -/

/-- Settles O2: the opcode byte of a valid table leads back to the instruction's handler, and the handler reads the
operand bytes where the encoder put them. -/
theorem decodeOfEncode : Obligations.DecodeOfEncode := by
  unfold Obligations.DecodeOfEncode
  exact fun _ valid i following => decodeBytes_encode valid i following

/-- Settles O3: a byte with a handler is that handler's opcode byte, and the rest is a split of the operand bytes. -/
theorem encodeOfDecode : Obligations.EncodeOfDecode := by
  unfold Obligations.EncodeOfDecode
  intro t ir opa opb i decodes
  obtain ⟨h, found, rfl⟩ := (decode_eq_ok_iff t ir opa opb i).mp decodes
  obtain rfl := byteOf_of_handlerOf_some found
  exact exists_encode_instr_append t h opa opb

/-- Settles O6, from the whole-byte match under a valid table; the outputs for the nine opcodes are computed. -/
theorem handlerByWholeByteMatch : Obligations.HandlerByWholeByteMatch := by
  unfold Obligations.HandlerByWholeByteMatch
  exact ⟨fun _ valid ir h => handlerOf_eq_some_iff valid ir h, by decide⟩

/-- Settles O1, by running the decoder on the ten words. -/
theorem sampleWordsDecode : Obligations.SampleWordsDecode := by
  unfold Obligations.SampleWordsDecode
  decide

/-- No opcode byte of the spec's table has bits 7:6 = 11: no instruction has three operand bytes. -/
theorem handlerOf_opcodes_of_ge {ir : Byte} (large : 192 ≤ ir.toNat) : handlerOf opcodes ir = none := by
  cases verdict : handlerOf opcodes ir with
  | none => rfl
  | some h =>
    have small : (opcodes.byteOf h).toNat < 192 := by cases h <;> decide
    rw [byteOf_of_handlerOf_some verdict] at small
    omega

/-- Settles O7: the count and two of the bytes are computed, and no opcode byte is 0xC0 or more. -/
theorem invalidOpcodeBytes : Obligations.InvalidOpcodeBytes := by
  unfold Obligations.InvalidOpcodeBytes
  exact ⟨by decide +kernel, by decide, by decide, fun _ => handlerOf_opcodes_of_ge⟩

end Sys2Proof.Machine
end

section
/-! What an instruction and a step can do to a state, said once: the seven shapes of `Effect`, with the values written
left open. Frames, safety rules and the invariant are read off them. -/

namespace Sys2Proof.Machine

/-- The shapes of an instruction's effect on `s` (files 41 to 45, 60_exceptions.md R168). -/
inductive Effect (s : State) : Instr → State → Prop where
  | raises {i : Instr} {v : Byte} (illegal : firstIllegal i.regOperands = some v) :
      Effect s i (raise .registerIndex v s)
  | halts : Effect s .halt (setPc (s.pc + 1) (setHalted s))
  | prints {a : Byte} (ha : a.toNat < 8) :
      Effect s (.print a) (setPc (s.pc + 2) (emit (rfRead ⟨a.toNat, ha⟩ s) s))
  | computes {i : Instr} {a b : Byte} (isResult : i = .loadImmediate a b ∨ i = .multiply a b ∨ i = .add a b)
      (wf : i.wellFormed = true) (ha : a.toNat < 8) (result : Byte) :
      Effect s i (setPc (s.pc + 3) (rfWrite ⟨a.toNat, ha⟩ result s))
  | stores {i : Instr} {a : Byte} (isStore : i = .push a ∨ i = .call a) (ha : a.toNat < 8) (target : Addr)
      (pushed : Byte) : Effect s i (setPc target (pushByte pushed s))
  | pops {a : Byte} (ha : a.toNat < 8) :
      Effect s (.pop a) (setPc (s.pc + 2) (spInc (rfWrite ⟨a.toNat, ha⟩ (loadTop s) s)))
  | returns : Effect s .ret (spInc (setPc (loadTop s) s))

/-- A well-formed instruction completes with one of the effects. -/
theorem exists_effect_of_wellFormed {i : Instr} (wf : i.wellFormed = true) (s : State) :
    ∃ t, exec i s = .next t ∧ Effect s i t := by
  cases i with
  | halt => exact ⟨_, exec_halt s, .halts⟩
  | loadImmediate a v =>
    have ha := operand_legal wf (.head _)
    exact ⟨_, exec_loadImmediate s v ha, .computes (.inl rfl) wf ha _⟩
  | print a =>
    have ha := operand_legal wf (.head _)
    exact ⟨_, exec_print s ha, .prints ha⟩
  | multiply a b =>
    have ha := operand_legal wf (.head _)
    exact ⟨_, exec_multiply s ha (operand_legal wf (.tail _ (.head _))), .computes (.inr (.inl rfl)) wf ha _⟩
  | add a b =>
    have ha := operand_legal wf (.head _)
    exact ⟨_, exec_add s ha (operand_legal wf (.tail _ (.head _))), .computes (.inr (.inr rfl)) wf ha _⟩
  | push a =>
    have ha := operand_legal wf (.head _)
    exact ⟨_, exec_push s ha, .stores (.inl rfl) ha _ _⟩
  | pop a =>
    have ha := operand_legal wf (.head _)
    exact ⟨_, exec_pop s ha, .pops ha⟩
  | call a =>
    have ha := operand_legal wf (.head _)
    exact ⟨_, exec_call s ha, .stores (.inr rfl) ha _ _⟩
  | ret => exact ⟨_, exec_ret s, .returns⟩

/-- Every instruction answers a next state, by one of the effects. -/
theorem exists_effect (i : Instr) (s : State) : ∃ t, exec i s = .next t ∧ Effect s i t := by
  cases check : firstIllegal i.regOperands with
  | some v => exact ⟨_, exec_of_firstIllegal s check, .raises check⟩
  | none => exact exists_effect_of_wellFormed ((firstIllegal_eq_none_iff i).mp check) s

theorem effect_of_exec {i : Instr} {s t : State} (runs : exec i s = .next t) : Effect s i t := by
  obtain ⟨u, completes, effect⟩ := exists_effect i s
  rw [runs] at completes
  cases completes
  exact effect

/-! ### The step -/

/-- Everything a step can do: hold a stopped machine, raise `InvalidOpcode`, or have an instruction's effect. -/
theorem step_effect {s t : State} (steps : step s = .next t) :
    (s.ctl ≠ .running ∧ t = s) ∨
    (s.ctl = .running ∧ ∃ ir, current s = .error (.invalidOpcode ir) ∧ t = raise .invalidOpcode ir s) ∨
    (s.ctl = .running ∧ ∃ i, current s = .ok i ∧ Effect s i t) := by
  rcases step_cases steps with held | invalid | ⟨running, i, decoded, runs⟩
  · exact .inl held
  · exact .inr (.inl invalid)
  · exact .inr (.inr ⟨running, i, decoded, effect_of_exec runs⟩)

/-- The byte at `pc` is the opcode of the current instruction. -/
theorem opcode_of_current {s : State} {i : Instr} (decoded : current s = .ok i) :
    memRead s.pc s = i.opcodeByte := by
  obtain ⟨h, found, rfl⟩ := (decode_eq_ok_iff _ _ _ _ _).mp decoded
  rw [Instr.opcodeByte, handler_instr]
  exact (byteOf_of_handlerOf_some found).symm

end Sys2Proof.Machine
end

section
/-! The invariant (10_state.md R20, 40_core_cycle.md R80, 60_exceptions.md R168): after reset, and over every step. -/

namespace Sys2Proof.Machine

theorem inv_iff (s : State) : s.inv = true ↔ s.mem.wf = true ∧ controlOk s = true := Bool.and_eq_true_iff

/-! ### The control part, by control state -/

theorem controlOk_of_running {s : State} (running : s.ctl = .running) :
    controlOk s = true ↔ s.fcause = 0 ∧ s.finfo = 0 := by
  simp [controlOk, running]

theorem controlOk_of_halted {s : State} (halted : s.ctl = .halted) :
    controlOk s = true ↔ (s.fcause = 0 ∧ s.finfo = 0) ∧ memRead (s.pc - 1) s = opcodes.halt := by
  simp [controlOk, halted]

/-- A fatal condition moves neither `pc` nor memory, so the bytes that explain it are still at `pc`. -/
theorem current_raise (c : Condition) (info : Byte) (s : State) : current (raise c info s) = current s := rfl

theorem controlOk_raise_invalidOpcode {s : State} {ir : Byte} (invalid : current s = .error (.invalidOpcode ir)) :
    controlOk (raise .invalidOpcode ir s) = true := by
  simp [controlOk, faultExplained, current_raise, invalid, conditionCode]

theorem controlOk_raise_registerIndex {s : State} {i : Instr} {v : Byte} (decoded : current s = .ok i)
    (illegal : firstIllegal i.regOperands = some v) : controlOk (raise .registerIndex v s) = true := by
  rw [firstIllegal] at illegal
  simp [controlOk, faultExplained, current_raise, decoded, conditionCode, illegal]

/-! ### Every step keeps both parts -/

/-- Only `push_byte` writes memory, through a write that keeps the canonical form. -/
theorem effect_mem_wf {i : Instr} {s t : State} (effect : Effect s i t) (wf : s.mem.wf = true) :
    t.mem.wf = true := by
  cases effect with
  | stores isStore ha target pushed =>
    rw [setPc_mem, pushByte_eq]
    exact memWrite_wf _ _ _ wf
  | raises | halts | prints | computes | pops | returns => exact wf

/-- A completed instruction keeps the empty record; HALT leaves `pc` past its opcode byte; a fatal condition records
what the instruction raises. -/
theorem effect_controlOk {i : Instr} {s t : State} (running : s.ctl = .running) (ok : controlOk s = true)
    (decoded : current s = .ok i) (effect : Effect s i t) : controlOk t = true := by
  have record := (controlOk_of_running running).mp ok
  cases effect with
  | raises illegal => exact controlOk_raise_registerIndex decoded illegal
  | halts =>
    refine (controlOk_of_halted rfl).mpr ⟨record, ?opcodeBefore⟩
    case opcodeBefore =>
      rw [setPc_pc, BitVec.add_sub_cancel]
      exact opcode_of_current decoded
  | prints | computes | stores | pops | returns =>
    refine (controlOk_of_running ?stillRunning).mpr record
    case stillRunning => exact running

theorem step_inv {s t : State} (inv : s.inv = true) (steps : step s = .next t) : t.inv = true := by
  obtain ⟨wf, ok⟩ := (inv_iff s).mp inv
  rcases step_effect steps with ⟨-, rfl⟩ | ⟨-, ir, invalid, rfl⟩ | ⟨running, i, decoded, effect⟩
  · exact inv
  · exact (inv_iff _).mpr ⟨wf, controlOk_raise_invalidOpcode invalid⟩
  · exact (inv_iff t).mpr ⟨effect_mem_wf effect wf, effect_controlOk running ok decoded effect⟩

/-! ### After reset -/

theorem boot_inv {p : Params} {image : List Byte} {s : State} (boots : boot p image = .next s) : s.inv = true := by
  obtain ⟨-, rfl⟩ := (boot_eq_next_iff p image s).mp boots
  refine (inv_iff _).mpr ⟨memWriteList_wf image 0 _ reset_mem_wf, ?control⟩
  case control =>
    rw [loadImage, memWriteList_frame]
    rfl

/-! ### The obligations -/

/-- Settles O53: a step holds the state, records the invalid opcode, or has an instruction's effect, and each keeps the
canonical form of memory and the control part. -/
theorem stepKeepsInvariant : Obligations.StepKeepsInvariant := by
  unfold Obligations.StepKeepsInvariant
  exact fun _ _ inv steps => step_inv inv steps

/-- Settles O52: the loader keeps the canonical form, and reset leaves the machine running with no condition. -/
theorem resetMeetsInvariant : Obligations.ResetMeetsInvariant := by
  unfold Obligations.ResetMeetsInvariant
  exact ⟨by decide, fun _ _ _ => boot_inv⟩

end Sys2Proof.Machine
end

section
/-! Register file, stack block, ALU and fatal-condition entry at their interfaces (10_state.md R14, 43_alu.md R117,
44_stack.md R130, 60_exceptions.md R168), and the stack instructions on register 7. -/

namespace Sys2Proof.Machine

/-! ### The obligations about the blocks -/

/-- Settles O9, from the reads of the register file after a write. -/
theorem registerFileContract : Obligations.RegisterFileContract := by
  unfold Obligations.RegisterFileContract
  refine fun s i v => ⟨rfRead_eq i s, rfRead_rfWrite_same i v s, fun j other => rfRead_rfWrite_ne i j v s other, ?frame⟩
  case frame => rfl

theorem memRead_pushByte_same (v : Byte) (s : State) : memRead (s.x[7] - 1) (pushByte v s) = v := by
  rw [pushByte_eq, sp_eq]
  exact memRead_memWrite_same _ _ _

theorem memRead_pushByte_ne {a : Addr} (v : Byte) (s : State) (other : a ≠ s.x[7] - 1) :
    memRead a (pushByte v s) = memRead a s := by
  rw [pushByte_eq, sp_eq]
  exact memRead_memWrite_ne _ _ _ _ other

/-- Settles O10, from the fields that `push_byte` writes and the read at the address it stores to. -/
theorem stackBlockContract : Obligations.StackBlockContract := by
  unfold Obligations.StackBlockContract
  refine ⟨fun s v => ⟨?push, memRead_pushByte_same v s, fun _ => memRead_pushByte_ne v s⟩, fun s => ?pop, by decide⟩
  case push => rw [pushByte_eq_update]
  case pop => rfl

/-- A byte difference, as a number: it borrows 256 when it would be negative (decision D13). -/
theorem sub_toNat (xv yv : Byte) :
    (xv - yv).toNat =
      if yv.toNat ≤ xv.toNat then xv.toNat - yv.toNat else xv.toNat + 256 - yv.toNat := by
  rw [BitVec.toNat_sub]
  split <;> omega

/-- Settles O12: the difference borrows modulo 256, and the write-back is a register write. -/
theorem aluDifference : Obligations.AluDifference := by
  unfold Obligations.AluDifference
  refine ⟨fun xv yv => ⟨xv - yv, rfl, sub_toNat xv yv⟩, fun s a b => ?writeBack⟩
  case writeBack => rfl

/-- Settles O29: the entry is one record update, with the condition's code. -/
theorem fatalConditionEntry : Obligations.FatalConditionEntry := by
  unfold Obligations.FatalConditionEntry
  exact fun _ _ => ⟨rfl, rfl, rfl⟩

/-! ### Register 7 as the operand of a stack instruction (decision D9) -/

/-- Settles O23: in the effects of PUSH, POP and CALL the operand is read after register 7 was written. -/
theorem stackOperandSeven : Obligations.StackOperandSeven := by
  unfold Obligations.StackOperandSeven
  have seven : (7 : Byte).toNat < 8 := by decide
  refine ⟨fun s => ?push, fun s => ?pop, fun s => ?call⟩
  case push =>
    rw [exec_push s seven, pushByte_rfRead_spDec]
    simp [setPc]
  case pop =>
    rw [exec_pop s seven, spInc_rfWrite_loadTop]
    simp [setPc]
  case call =>
    rw [exec_call s seven, setPc_rfRead_pushByte]
    simp

end Sys2Proof.Machine
end

section
/-! Frames (10_state.md section 2, 20_memory.md section 1): what each instruction leaves unchanged, field by field, and
the frames of the instruction groups put together from them. -/

namespace Sys2Proof.Machine

/-! ### What an instruction may write -/

/-- The registers an instruction writes: the table of 10_state.md section 2. -/
def destinations (i : Instr) : List Nat :=
  match i with
  | .halt => []
  | .loadImmediate a _ => [a.toNat]
  | .print _ => []
  | .multiply a _ => [a.toNat]
  | .add a _ => [a.toNat]
  | .push _ => [spIndex.val]
  | .pop a => [a.toNat, spIndex.val]
  | .call _ => [spIndex.val]
  | .ret => [spIndex.val]

/-- The instructions that store a byte: PUSH and CALL (20_memory.md section 1). -/
def IsStore (i : Instr) : Prop := ∃ a, i = .push a ∨ i = .call a

/-! ### Frames of an effect, by field -/

section
variable {i : Instr} {s t : State}

/-- Registers other than the destinations keep their bytes. -/
theorem effect_rfRead {j : RegIx} (effect : Effect s i t) (kept : j.val ∉ destinations i) :
    rfRead j t = rfRead j s := by
  cases effect with
  | raises | halts | prints => rfl
  | @computes _ a _ isResult wf ha result =>
    have other : j.val ≠ a.toNat := by
      rcases isResult with rfl | rfl | rfl <;> exact fun same => kept (same ▸ .head _)
    exact rfRead_rfWrite_ne _ j result s (Fin.ne_of_val_ne other)
  | stores isStore ha target pushed =>
    have other : j.val ≠ spIndex.val := by
      rcases isStore with rfl | rfl <;> exact fun same => kept (same ▸ .head _)
    rw [rfRead_setPc, pushByte_eq, rfRead_memWrite]
    exact rfRead_rfWrite_ne _ j _ s (Fin.ne_of_val_ne other)
  | @pops a ha =>
    have otherDest : j.val ≠ a.toNat := fun same => kept (same ▸ .head _)
    have otherSp : j.val ≠ spIndex.val := fun same => kept (same ▸ .tail _ (.head _))
    rw [rfRead_setPc, spInc_eq, rfRead_rfWrite_ne _ _ _ _ (Fin.ne_of_val_ne otherSp)]
    exact rfRead_rfWrite_ne _ j _ s (Fin.ne_of_val_ne otherDest)
  | returns =>
    have other : j.val ≠ spIndex.val := fun same => kept (same ▸ .head _)
    exact rfRead_rfWrite_ne _ j _ _ (Fin.ne_of_val_ne other)

theorem effect_memRead {a : Addr} (effect : Effect s i t) (kept : a = s.x[7] - 1 → ¬IsStore i) :
    memRead a t = memRead a s := by
  cases effect with
  | stores isStore ha target pushed => exact memRead_pushByte_ne pushed s fun top => kept top ⟨_, isStore⟩
  | raises | halts | prints | computes | pops | returns => rfl

theorem effect_out (effect : Effect s i t) :
    t.out = s.out ∨ ∃ (a : Byte) (ha : a.toNat < 8), i = .print a ∧ t.out = s.out ++ [s.x[a.toNat]] := by
  cases effect with
  | prints ha => exact .inr ⟨_, ha, rfl, rfl⟩
  | raises | halts | computes | stores | pops | returns => exact .inl rfl

theorem effect_out_of_not_print (effect : Effect s i t) (noPrint : ∀ a, i ≠ .print a) : t.out = s.out := by
  rcases effect_out effect with kept | ⟨a, -, isPrint, -⟩
  · exact kept
  · exact absurd isPrint (noPrint a)

end

/-! ### Control state, and the fatal condition of an illegal operand -/

section
variable {i : Instr} {s t : State}

theorem exists_firstIllegal (illFormed : i.wellFormed = false) : ∃ v, firstIllegal i.regOperands = some v := by
  cases check : firstIllegal i.regOperands with
  | some v => exact ⟨v, rfl⟩
  | none => exact absurd ((firstIllegal_eq_none_iff i).mp check) (by simp [illFormed])

theorem eq_raise_of_illFormed (illFormed : i.wellFormed = false) (runs : exec i s = .next t) :
    ∃ v, t = raise .registerIndex v s := by
  obtain ⟨v, illegal⟩ := exists_firstIllegal illFormed
  rw [exec_of_firstIllegal s illegal] at runs
  exact ⟨v, (Host.Outcome.next.inj runs).symm⟩

theorem exec_keeps_control (wf : i.wellFormed = true) (notHalt : i ≠ .halt) (runs : exec i s = .next t) :
    t.ctl = s.ctl ∧ t.fcause = s.fcause ∧ t.finfo = s.finfo := by
  obtain ⟨u, completes, cause, info, control⟩ := exec_control_of_wellFormed wf s
  rw [runs] at completes
  cases completes
  exact ⟨control.trans (if_neg notHalt), cause, info⟩

theorem wellFormed_iff_of_one {a : Byte} (operands : i.regOperands = [a]) : i.wellFormed = true ↔ a.toNat < 8 := by
  simp [Instr.wellFormed, operands, isRegIndex]

theorem illFormed_of_one {a : Byte} (operands : i.regOperands = [a]) (ha : 8 ≤ a.toNat) : i.wellFormed = false := by
  simp [Instr.wellFormed, operands, isRegIndex, ha]

end

/-! ### The obligations -/

/-- Settles O30: the operand check stops the instruction at its first illegal operand. -/
theorem illegalOperandRaises : Obligations.IllegalOperandRaises := by
  unfold Obligations.IllegalOperandRaises
  intro i s illFormed
  obtain ⟨v, illegal⟩ := exists_firstIllegal illFormed
  exact ⟨v, illegal, exec_of_firstIllegal s illegal⟩

/-- Settles O31, from the control state each instruction completes with. -/
theorem legalOperandsRaiseNothing : Obligations.LegalOperandsRaiseNothing := by
  unfold Obligations.LegalOperandsRaiseNothing
  exact fun _ s wf => exec_control_of_wellFormed wf s

/-- Settles O24: the destination is operand `a` alone, and the three instructions neither store nor print. -/
theorem registerResultFrame : Obligations.RegisterResultFrame := by
  unfold Obligations.RegisterResultFrame
  intro i a b isResult s t runs
  have effect := effect_of_exec runs
  obtain ⟨dests, noStore, noPrint, notHalt⟩ :
      destinations i = [a.toNat] ∧ ¬IsStore i ∧ (∀ c, i ≠ .print c) ∧ i ≠ .halt := by
    rcases isResult with rfl | rfl | rfl <;> simp [destinations, IsStore]
  refine ⟨fun j other => effect_rfRead effect ?register, fun _ => effect_memRead effect fun _ => noStore,
    effect_out_of_not_print effect noPrint, fun wf => exec_keeps_control wf notHalt runs, fun illFormed => ?illegal⟩
  case register => simpa [dests] using other
  case illegal =>
    obtain ⟨v, rfl⟩ := eq_raise_of_illFormed illFormed runs
    rfl

/-- Settles O25: neither instruction has a destination, and the effect of each is on `ctl` or output alone. -/
theorem haltPrintFrame : Obligations.HaltPrintFrame := by
  unfold Obligations.HaltPrintFrame
  refine ⟨fun s t runs => ?halt, fun a s t runs => ?print⟩
  case halt =>
    rw [exec_halt] at runs
    cases runs
    exact ⟨rfl, fun _ => rfl, rfl, rfl, rfl⟩
  case print =>
    have control (ha : a.toNat < 8) :=
      exec_keeps_control ((wellFormed_iff_of_one (i := .print a) rfl).mpr ha) (by simp) runs
    cases effect_of_exec runs with
    | raises | prints => exact ⟨rfl, fun _ => rfl, control⟩
    | computes isResult => simp at isResult
    | stores isStore => simp at isStore

/-- Settles O26: the stack pointer is the one destination, and the one cell written is at its new value. -/
theorem storeFrame : Obligations.StoreFrame := by
  unfold Obligations.StoreFrame
  intro i a isStore s t runs
  have effect := effect_of_exec runs
  obtain ⟨dests, operands, noPrint, notHalt⟩ :
      destinations i = [spIndex.val] ∧ i.regOperands = [a] ∧ (∀ c, i ≠ .print c) ∧ i ≠ .halt := by
    rcases isStore with rfl | rfl <;> simp [destinations, Instr.regOperands]
  refine ⟨fun j other => effect_rfRead effect ?register, fun addr other => effect_memRead effect fun top => ?memory,
    effect_out_of_not_print effect noPrint,
    fun ha => exec_keeps_control ((wellFormed_iff_of_one operands).mpr ha) notHalt runs, fun ha => ?illegal⟩
  case register => simpa [dests] using Fin.val_ne_of_ne other
  case memory => exact absurd (top.trans (sp_spDec s).symm) other
  case illegal =>
    obtain ⟨v, rfl⟩ := eq_raise_of_illFormed (illFormed_of_one operands ha) runs
    exact ⟨rfl, fun _ => rfl⟩

/-- Settles O27: the destinations are POP's operand and the stack pointer, and neither instruction stores or prints. -/
theorem loadFrame : Obligations.LoadFrame := by
  unfold Obligations.LoadFrame
  refine ⟨fun a s t runs => ?pop, fun s t runs => ?ret⟩
  case pop =>
    have effect := effect_of_exec runs
    refine ⟨fun j otherDest otherSp => effect_rfRead effect ?register,
      fun _ => effect_memRead effect fun _ => by simp [IsStore], effect_out_of_not_print effect (by simp),
      fun ha => exec_keeps_control ((wellFormed_iff_of_one rfl).mpr ha) (by simp) runs, fun ha => ?illegal⟩
    case register => simp [destinations, otherDest, Fin.val_ne_of_ne otherSp]
    case illegal =>
      obtain ⟨v, rfl⟩ := eq_raise_of_illFormed (illFormed_of_one rfl ha) runs
      rfl
  case ret =>
    have effect := effect_of_exec runs
    refine ⟨fun j other => effect_rfRead effect ?register,
      fun _ => effect_memRead effect fun _ => by simp [IsStore], effect_out_of_not_print effect (by simp),
      exec_keeps_control rfl (by simp) runs⟩
    case register => simpa [destinations] using Fin.val_ne_of_ne other

end Sys2Proof.Machine
end

section
/-! The step (40_core_cycle.md sections 2 to 6): which instruction it runs, when it stops, and what a step writes. -/

namespace Sys2Proof.Machine

/-! ### A pass of a running machine, by the verdict on its opcode byte -/

section
variable {p : Params} {s : State}

theorem cycle_of_decode {i : Instr} (running : s.ctl = .running)
    (decoded : decode p.opcodes (memRead s.pc s) (memRead (s.pc + 1) s) (memRead (s.pc + 2) s) = .ok i) :
    cycle p s = exec (policyInstr p.regIndex i) s := by
  rw [cycle_running p s running, dispatch, fetch_eq]
  simp only [decoded]

theorem cycle_of_invalidOpcode (running : s.ctl = .running)
    (absent : handlerOf p.opcodes (memRead s.pc s) = none) :
    cycle p s = .next (onInvalidOpcode p.invalidOpcode (memRead s.pc s) s) := by
  rw [cycle_running p s running, dispatch, fetch_eq]
  simp only [decode_of_handlerOf_none absent]

theorem cycle_of_not_running (stopped : s.ctl ≠ .running) : cycle p s = .next s := by
  cases control : s.ctl with
  | running => exact absurd control stopped
  | halted => exact cycle_halted p s control
  | faulted => exact cycle_faulted p s control

/-- A pass always answers a next state: no arm of `exec` faults or refuses. -/
theorem exists_cycle_eq_next (p : Params) (s : State) : ∃ t, cycle p s = .next t := by
  by_cases running : s.ctl = .running
  · cases verdict : handlerOf p.opcodes (memRead s.pc s) with
    | none => exact ⟨_, cycle_of_invalidOpcode running verdict⟩
    | some h =>
      obtain ⟨t, runs, -⟩ := exists_effect (policyInstr p.regIndex (h.instr _ _)) s
      exact ⟨t, (cycle_of_decode running (decode_of_handlerOf_some verdict _ _)).trans runs⟩
  · exact ⟨s, cycle_of_not_running running⟩

/-- The step runs the current instruction. -/
theorem step_of_current {i : Instr} (running : s.ctl = .running) (decoded : current s = .ok i) :
    step s = exec i s := by
  rw [step, cycle_of_decode (p := defaultParams) running decoded]
  exact congrArg (exec · s) (policyInstr_fault i)

end

/-! ### The obligations about decode, dispatch and the policies -/

/-- Settles O32, from the pass of a running machine on bytes that decode; `step` takes the policy that leaves the
instruction alone. -/
theorem stepRunsDecodedInstruction : Obligations.StepRunsDecodedInstruction := by
  unfold Obligations.StepRunsDecodedInstruction
  exact ⟨fun _ _ _ running decoded => cycle_of_decode running decoded,
    fun _ _ running decoded => step_of_current running decoded⟩

/-- Settles O34, from the step of a running machine on a byte without a handler. -/
theorem invalidOpcodeStep : Obligations.InvalidOpcodeStep := by
  unfold Obligations.InvalidOpcodeStep
  exact fun _ running absent => step_of_invalidOpcode running absent

/-- Settles O50: the policy's state after an invalid opcode is the state itself. -/
theorem spinPolicyRepeats : Obligations.SpinPolicyRepeats := by
  unfold Obligations.SpinPolicyRepeats
  intro p s spin running absent
  rw [cycle_of_invalidOpcode running absent, spin]
  rfl

/-- Settles O35: every instruction has an effect, and the other passes are state updates. -/
theorem stepTotal : Obligations.StepTotal := by
  unfold Obligations.StepTotal
  exact ⟨exists_cycle_eq_next defaultParams, exists_cycle_eq_next⟩

/-! ### Operands under mask3 (10_state.md R15) -/

theorem mask3_toNat (v : Byte) : (mask3 v).toNat = v.toNat % 8 := by
  rw [mask3, BitVec.toNat_and]
  exact Nat.and_two_pow_sub_one_eq_mod v.toNat 3

theorem isRegIndex_mask3 (v : Byte) : isRegIndex (mask3 v) = true := by
  rw [isRegIndex_eq_true_iff, mask3_toNat]
  exact Nat.mod_lt _ (by decide)

theorem handler_policyInstr (policy : RegIndexPolicy) (i : Instr) : (policyInstr policy i).handler = i.handler := by
  cases i <;> rfl

theorem regOperands_policyInstr (policy : RegIndexPolicy) (i : Instr) :
    (policyInstr policy i).regOperands = i.regOperands.map (policyOperand policy) := by
  cases i <;> rfl

theorem policyInstr_mask3_wellFormed (i : Instr) : (policyInstr .mask3 i).wellFormed = true := by
  rw [Instr.wellFormed, regOperands_policyInstr, List.all_map, List.all_eq_true]
  exact fun v _ => isRegIndex_mask3 v

/-- A well-formed instruction never enters `Faulted` from another control state. -/
theorem ctl_ne_faulted_of_wellFormed {i : Instr} {s t : State} (wf : i.wellFormed = true)
    (healthy : s.ctl ≠ .faulted) (runs : exec i s = .next t) : t.ctl ≠ .faulted := by
  by_cases isHalt : i = .halt
  · subst isHalt
    rw [exec_halt] at runs
    cases runs
    simp
  · rwa [(exec_keeps_control wf isHalt runs).1]

/-- Settles O51: masked operands are legal, so the instruction that runs is well formed and raises nothing. -/
theorem maskPolicyNeverFaults : Obligations.MaskPolicyNeverFaults := by
  unfold Obligations.MaskPolicyNeverFaults
  refine ⟨fun i => ⟨policyInstr_mask3_wellFormed i, handler_policyInstr .mask3 i, ?operands⟩,
    fun a v => ⟨mask3 a, rfl⟩, fun p s t mask running opcode passes => ?pass⟩
  case operands =>
    rw [regOperands_policyInstr, List.map_map]
    exact List.map_congr_left fun v _ => mask3_toNat v
  case pass =>
    obtain ⟨h, verdict⟩ := Option.ne_none_iff_exists'.mp opcode
    rw [cycle_of_decode running (decode_of_handlerOf_some verdict _ _), mask] at passes
    exact ctl_ne_faulted_of_wellFormed (policyInstr_mask3_wellFormed _) (by simp [running]) passes

end Sys2Proof.Machine
end

section
/-! Runs and the control state (40_core_cycle.md R72 to R74, R76): a stopped machine stays as it is, when a step stops
the machine, and that bytes beyond the operands have no say. -/

namespace Sys2Proof.Machine

/-! ### Runs -/

theorem run_succ (M : Host.Core) (k : Nat) {s t : M.State} (steps : M.step s = .next t) :
    M.run (k + 1) s = M.run k t := by
  rw [Host.Core.run, steps]

theorem run_succ_of_step (k : Nat) {s t : State} (steps : step s = .next t) : core.run (k + 1) s = core.run k t :=
  run_succ core k steps

theorem run_of_not_running (k : Nat) {s : State} (stopped : s.ctl ≠ .running) : core.run k s = .next s := by
  induction k with
  | zero => rfl
  | succ k ih => exact (run_succ_of_step k (step_of_not_running stopped)).trans ih

/-- A run that has reached a stopped state is in that state after any further steps. -/
theorem run_add_of_stopped (k m : Nat) {s t : State} (reached : core.run k s = .next t) (stopped : t.ctl ≠ .running) :
    core.run (k + m) s = .next t := by
  induction k generalizing s with
  | zero =>
    cases reached
    rw [Nat.zero_add]
    exact run_of_not_running m stopped
  | succ k ih =>
    obtain ⟨u, steps⟩ := exists_cycle_eq_next defaultParams s
    rw [run_succ_of_step k steps] at reached
    rw [Nat.succ_add, run_succ_of_step (k + m) steps]
    exact ih reached

/-- Settles O36, by induction on the steps of the run. -/
theorem stoppedMachineHoldsState : Obligations.StoppedMachineHoldsState := by
  unfold Obligations.StoppedMachineHoldsState
  exact ⟨fun _ _ stopped => cycle_of_not_running stopped,
    fun k m _ _ reached stopped => run_add_of_stopped k m reached stopped⟩

/-! ### The control state after a step -/

/-- The control state that an instruction of a running machine leaves. -/
theorem exec_ctl {i : Instr} {s t : State} (running : s.ctl = .running) (runs : exec i s = .next t) :
    t.ctl = if i.wellFormed then (if i = .halt then .halted else .running) else .faulted := by
  cases wf : i.wellFormed with
  | false =>
    obtain ⟨v, rfl⟩ := eq_raise_of_illFormed wf runs
    rfl
  | true =>
    obtain ⟨u, completes, -, -, control⟩ := exec_control_of_wellFormed wf s
    rw [runs] at completes
    cases completes
    rw [control, running, if_pos rfl]

/-- Settles O37, by what the bytes at `pc` are: no opcode, an illegal operand, HALT, or any other instruction. -/
theorem controlTransitions : Obligations.ControlTransitions := by
  unfold Obligations.ControlTransitions
  intro s t running steps
  rcases step_effect steps with ⟨stopped, -⟩ | ⟨-, ir, invalid, rfl⟩ | ⟨-, i, decoded, -⟩
  · exact absurd running stopped
  · simp [invalid]
  · rw [step_of_current running decoded] at steps
    have control := exec_ctl running steps
    cases wf : i.wellFormed with
    | false =>
      have notHalt : i ≠ .halt := by rintro rfl; cases wf
      simp [control, decoded, wf, notHalt]
    | true =>
      by_cases isHalt : i = .halt
      · subst isHalt
        simp [control, decoded, wf]
      · simp [control, decoded, wf, isHalt]

/-! ### Bytes beyond the operands (R76) -/

/-- What a handler makes of operand bytes depends on the first `operandCount` of them. -/
theorem instr_congr {h : Handler} {opa opb opa' opb' : Byte} (first : 1 ≤ h.operandCount → opa' = opa)
    (second : 2 ≤ h.operandCount → opb' = opb) : h.instr opa' opb' = h.instr opa opb := by
  cases h with
  | halt | ret => rfl
  | print | push | pop | call => rw [first (by decide)]; rfl
  | loadImmediate | multiply | add => rw [first (by decide), second (by decide)]

/-- A write that leaves the opcode byte, and every operand byte it announces, leaves the current instruction. -/
theorem current_memWrite {s : State} {i : Instr} {a : Addr} (v : Byte) (decoded : current s = .ok i)
    (notOpcode : s.pc ≠ a) (notFirst : 1 ≤ (nops (memRead s.pc s)).toNat → s.pc + 1 ≠ a)
    (notSecond : 2 ≤ (nops (memRead s.pc s)).toNat → s.pc + 2 ≠ a) :
    current (memWrite a v s) = .ok i := by
  obtain ⟨h, found, rfl⟩ := (decode_eq_ok_iff _ _ _ _ _).mp decoded
  have opcode : memRead s.pc (memWrite a v s) = memRead s.pc s := memRead_memWrite_ne _ _ _ _ notOpcode
  have count : (nops (memRead s.pc s)).toNat = h.operandCount := by
    rw [← byteOf_of_handlerOf_some (ir := memRead s.pc s) found]
    exact (Laws.EncodedLength.default_fits h).1
  rw [count] at notFirst notSecond
  refine (decode_eq_ok_iff _ _ _ _ _).mpr ⟨h, (congrArg (handlerOf opcodes) opcode).trans found, ?operands⟩
  case operands =>
    exact instr_congr (fun one => memRead_memWrite_ne _ _ _ _ (notFirst one))
      fun two => memRead_memWrite_ne _ _ _ _ (notSecond two)

/-- Settles O38: the byte written is neither the opcode byte nor an operand byte, so the step runs the same
instruction. -/
theorem unusedFetchedBytesIgnored : Obligations.UnusedFetchedBytesIgnored := by
  unfold Obligations.UnusedFetchedBytesIgnored
  intro s i v running decoded
  refine ⟨fun fewer => ?second, fun none => ?first⟩
  case second =>
    refine step_of_current running (current_memWrite v decoded ?_ (fun _ => ?_) fun two => ?_)
    · simp
    · simp
    · omega
  case first =>
    refine step_of_current running (current_memWrite v decoded ?_ (fun one => ?_) fun _ => ?_)
    · simp
    · omega
    · simp

end Sys2Proof.Machine
end

section
/-! Rules over the whole machine (10_state.md sections 2, 4 and 5, 20_memory.md section 1): what a step may write, and
what it does not read. -/

namespace Sys2Proof.Machine

/-! ### What a step may write -/

/-- A register among the destinations is there by the table of 10_state.md section 2: operand `a`, or register 7. -/
theorem table_of_mem_destinations {i : Instr} {j : RegIx} (dest : j.val ∈ destinations i) :
    (∃ a b : Byte, a.toNat = j.val ∧ (i = .loadImmediate a b ∨ i = .multiply a b ∨ i = .add a b ∨ i = .pop a)) ∨
      (j = spIndex ∧ (i = .ret ∨ ∃ a : Byte, i = .push a ∨ i = .pop a ∨ i = .call a)) := by
  cases i with
  | halt | print => cases dest
  | loadImmediate a b | multiply a b | add a b => exact .inl ⟨a, b, (List.mem_singleton.mp dest).symm, by simp⟩
  | push a | call a => exact .inr ⟨Fin.ext (List.mem_singleton.mp dest), by simp⟩
  | ret => exact .inr ⟨Fin.ext (List.mem_singleton.mp dest), by simp⟩
  | pop a =>
    rcases List.mem_pair.mp dest with isOperand | isSp
    · exact .inl ⟨a, 0, isOperand.symm, by simp⟩
    · exact .inr ⟨Fin.ext isSp, by simp⟩

/-- Settles O42: a step changes a register through an instruction whose destinations it is among. -/
theorem registersWrittenOnlyByTable : Obligations.RegistersWrittenOnlyByTable := by
  unfold Obligations.RegistersWrittenOnlyByTable
  intro s t steps j changed
  rcases step_effect steps with ⟨-, rfl⟩ | ⟨-, ir, -, rfl⟩ | ⟨running, i, decoded, effect⟩
  · exact absurd rfl changed
  · exact absurd rfl changed
  · have dest : j.val ∈ destinations i := by_contra fun kept => changed (effect_rfRead effect kept)
    exact ⟨i, running, decoded, table_of_mem_destinations dest⟩

/-- Settles O41: a step changes a cell through a storing instruction, at the new stack pointer. -/
theorem memoryWrittenOnlyByPushAndCall : Obligations.MemoryWrittenOnlyByPushAndCall := by
  unfold Obligations.MemoryWrittenOnlyByPushAndCall
  intro s t steps a changed
  rcases step_effect steps with ⟨-, rfl⟩ | ⟨-, ir, -, rfl⟩ | ⟨running, i, decoded, effect⟩
  · exact absurd rfl changed
  · exact absurd rfl changed
  · have storesTop : ¬(a = s.x[7] - 1 → ¬IsStore i) := fun kept => changed (effect_memRead effect kept)
    obtain ⟨top, isStore⟩ := Classical.not_imp.mp storesTop
    obtain ⟨r, isStore⟩ := not_not.mp isStore
    exact ⟨running, top, r, by simpa [decoded] using isStore⟩

/-- Settles O39: of the effects of a step, only PRINT's is on the output. -/
theorem outputOnlyAppendedByPrint : Obligations.OutputOnlyAppendedByPrint := by
  unfold Obligations.OutputOnlyAppendedByPrint
  refine ⟨rfl, fun s t steps => ?step⟩
  case step =>
    rcases step_effect steps with ⟨-, rfl⟩ | ⟨-, ir, -, rfl⟩ | ⟨running, i, decoded, effect⟩
    · exact .inl rfl
    · exact .inl rfl
    · rcases effect_out effect with kept | ⟨a, ha, rfl, appended⟩
      · exact .inl kept
      · exact .inr ⟨running, a, ha, decoded, appended⟩

/-! ### What a step does not read -/

/-- `s` with another record of a condition and other output so far. -/
def reobserve (c : BitVec 2) (info : Byte) (o : List Byte) (s : State) : State :=
  { s with fcause := c, finfo := info, out := o }

/-- `t'` came from `s'` as `t` from `s`: the machine proper ended the same, and the same bytes were emitted. -/
def SameMove (s t s' t' : State) : Prop :=
  t'.mem = t.mem ∧ t'.x = t.x ∧ t'.pc = t.pc ∧ t'.ctl = t.ctl ∧
    ∃ emitted, t.out = s.out ++ emitted ∧ t'.out = s'.out ++ emitted

section
variable {c : BitVec 2} {info : Byte} {o : List Byte} {s t : State}

theorem sameMove_of_silent (silent : t.out = s.out) :
    SameMove s t (reobserve c info o s) (reobserve c info o t) :=
  ⟨rfl, rfl, rfl, rfl, [], silent.trans (List.append_nil _).symm, (List.append_nil _).symm⟩

/-- A fatal condition overwrites the record and leaves the output. -/
theorem sameMove_raise (cond : Condition) (v : Byte) :
    SameMove s (raise cond v s) (reobserve c info o s) (raise cond v (reobserve c info o s)) :=
  ⟨rfl, rfl, rfl, rfl, [], (List.append_nil _).symm, (List.append_nil _).symm⟩

/-- A well-formed instruction other than PRINT carries record and output along. -/
theorem exec_reobserve_of_silent {i : Instr} (wf : i.wellFormed = true) (noPrint : ∀ a, i ≠ .print a)
    (c : BitVec 2) (info : Byte) (o : List Byte) (s : State) :
    ∃ t, exec i s = .next t ∧ t.out = s.out ∧ exec i (reobserve c info o s) = .next (reobserve c info o t) := by
  cases i with
  | halt => exact ⟨_, exec_halt s, rfl, exec_halt _⟩
  | loadImmediate a v =>
    have ha := operand_legal wf (.head _)
    exact ⟨_, exec_loadImmediate s v ha, rfl, exec_loadImmediate _ v ha⟩
  | print a => exact absurd rfl (noPrint a)
  | multiply a b =>
    have ha := operand_legal wf (.head _)
    have hb := operand_legal wf (.tail _ (.head _))
    exact ⟨_, exec_multiply s ha hb, rfl, exec_multiply _ ha hb⟩
  | add a b =>
    have ha := operand_legal wf (.head _)
    have hb := operand_legal wf (.tail _ (.head _))
    exact ⟨_, exec_add s ha hb, rfl, exec_add _ ha hb⟩
  | push a =>
    have ha := operand_legal wf (.head _)
    exact ⟨_, exec_push s ha, rfl, exec_push _ ha⟩
  | pop a =>
    have ha := operand_legal wf (.head _)
    exact ⟨_, exec_pop s ha, rfl, exec_pop _ ha⟩
  | call a =>
    have ha := operand_legal wf (.head _)
    exact ⟨_, exec_call s ha, rfl, exec_call _ ha⟩
  | ret => exact ⟨_, exec_ret s, rfl, exec_ret _⟩

theorem exec_print_sameMove {a : Byte} (wf : (Instr.print a).wellFormed = true) (c : BitVec 2) (info : Byte)
    (o : List Byte) (s : State) :
    ∃ t t', exec (.print a) s = .next t ∧ exec (.print a) (reobserve c info o s) = .next t' ∧
      SameMove s t (reobserve c info o s) t' :=
  have ha := operand_legal wf (.head _)
  ⟨_, _, exec_print s ha, exec_print _ ha, rfl, rfl, rfl, rfl, [_], rfl, rfl⟩

/-- Every instruction moves the machine the same way, whatever record and output it starts with. -/
theorem exists_exec_sameMove (i : Instr) (c : BitVec 2) (info : Byte) (o : List Byte) (s : State) :
    ∃ t t', exec i s = .next t ∧ exec i (reobserve c info o s) = .next t' ∧
      SameMove s t (reobserve c info o s) t' := by
  cases check : firstIllegal i.regOperands with
  | some v => exact ⟨_, _, exec_of_firstIllegal s check, exec_of_firstIllegal _ check, sameMove_raise _ v⟩
  | none =>
    have wf := (firstIllegal_eq_none_iff i).mp check
    by_cases isPrint : ∃ a, i = .print a
    · obtain ⟨a, rfl⟩ := isPrint
      exact exec_print_sameMove wf c info o s
    · obtain ⟨t, runs, silent, runs'⟩ := exec_reobserve_of_silent wf (not_exists.mp isPrint) c info o s
      exact ⟨_, _, runs, runs', sameMove_of_silent silent⟩

theorem step_sameMove (steps : step s = .next t) :
    ∃ t', step (reobserve c info o s) = .next t' ∧ SameMove s t (reobserve c info o s) t' := by
  by_cases running : s.ctl = .running
  · cases verdict : handlerOf opcodes (memRead s.pc s) with
    | none =>
      rw [step_of_invalidOpcode running verdict] at steps
      cases steps
      exact ⟨_, step_of_invalidOpcode (s := reobserve c info o s) running verdict, sameMove_raise _ _⟩
    | some h =>
      rw [step_of_opcode running verdict] at steps
      obtain ⟨u, u', runs, runs', same⟩ := exists_exec_sameMove (h.instr _ _) c info o s
      rw [runs] at steps
      cases steps
      exact ⟨u', (step_of_opcode (s := reobserve c info o s) running verdict).trans runs', same⟩
  · rw [step_of_not_running running] at steps
    cases steps
    exact ⟨_, step_of_not_running (s := reobserve c info o s) running, sameMove_of_silent rfl⟩

end

/-- Settles O40: a held state, a fatal condition and every instruction move the machine the same way. -/
theorem observedStateNotReadBack : Obligations.ObservedStateNotReadBack := by
  unfold Obligations.ObservedStateNotReadBack
  exact fun _ _ _ _ _ steps => step_sameMove steps

end Sys2Proof.Machine
end

section
/-! The stack (44_stack.md sections 1 and 2, 45_call_return.md, 20_memory.md section 5): sequences of operations, and
the two-step laws of PUSH and POP, CALL and RETURN. -/

namespace Sys2Proof.Machine

/-! ### Sequences of stack operations -/

theorem stackOps_cons (op : Option Byte) (ops : List (Option Byte)) (s : State) :
    stackOps (op :: ops) s = stackOps ops (stackOp s op) := rfl

theorem stackOps_append (ops ops' : List (Option Byte)) (s : State) :
    stackOps (ops ++ ops') s = stackOps ops' (stackOps ops s) := List.foldl_append

@[simp] theorem sp_pushByte (v : Byte) (s : State) : sp (pushByte v s) = sp s - 1 := sp_spDec s

/-- The stack pointer counts pushes down and pops up, modulo 256 (R131). -/
theorem sp_stackOps (ops : List (Option Byte)) (s : State) :
    sp (stackOps ops s) =
      sp s - BitVec.ofNat 8 (ops.countP Option.isSome) + BitVec.ofNat 8 (ops.countP Option.isNone) := by
  induction ops generalizing s with
  | nil => simp [stackOps]
  | cons op ops ih =>
    rw [stackOps_cons, ih]
    cases op with
    | some v =>
      have pointer : sp (stackOp s (some v)) = sp s - 1 := sp_pushByte v s
      simp [pointer, BitVec.ofNat_add]
      ring
    | none =>
      have pointer : sp (stackOp s none) = sp s + 1 := sp_spInc s
      simp [pointer, BitVec.ofNat_add]
      ring

/-- Settles O46, by induction on the sequence. -/
theorem stackPointerCountsOperations : Obligations.StackPointerCountsOperations := by
  unfold Obligations.StackPointerCountsOperations
  exact sp_stackOps

/-! ### Last in, first out -/

theorem popped_succ (n : Nat) (s : State) : popped (n + 1) s = loadTop s :: popped n (spInc s) := rfl

theorem loadTop_pushByte (v : Byte) (s : State) : loadTop (pushByte v s) = v := by
  rw [loadTop, sp_pushByte]
  exact memRead_pushByte_same v s

theorem sp_spInc_pushByte (v : Byte) (s : State) : sp (spInc (pushByte v s)) = sp s := by
  rw [sp_spInc, sp_pushByte, BitVec.sub_add_cancel]

/-- The bytes of `n` pops depend on the stack pointer and the `n` cells from it on. -/
theorem popped_congr {n : Nat} {s t : State} (pointer : sp t = sp s)
    (cells : ∀ k < n, memRead (sp s + BitVec.ofNat 8 k) t = memRead (sp s + BitVec.ofNat 8 k) s) :
    popped n t = popped n s := by
  induction n generalizing s t with
  | zero => rfl
  | succ n ih =>
    have top : loadTop t = loadTop s := by
      have cell := cells 0 n.succ_pos
      rw [BitVec.add_zero] at cell
      rw [loadTop, loadTop, pointer, cell]
    have pointer' : sp (spInc t) = sp (spInc s) := by rw [sp_spInc, sp_spInc, pointer]
    have cells' : ∀ k < n,
        memRead (sp (spInc s) + BitVec.ofNat 8 k) t = memRead (sp (spInc s) + BitVec.ofNat 8 k) s := by
      intro k hk
      have cell := cells (k + 1) (Nat.succ_lt_succ hk)
      rw [Nat.add_comm k, BitVec.ofNat_add, ← BitVec.add_assoc] at cell
      rw [sp_spInc]
      exact cell
    rw [popped_succ, popped_succ, top, ih pointer' cells']

theorem add_ofNat_ne_sub_one (pointer : Addr) {k : Nat} (hk : k < 255) : pointer + BitVec.ofNat 8 k ≠ pointer - 1 := by
  bv_omega

/-- A push and a pop leave the stack above as it was, as far as it does not reach round memory to the pushed cell. -/
theorem popped_spInc_pushByte {n : Nat} (v : Byte) (s : State) (room : n ≤ 255) :
    popped n (spInc (pushByte v s)) = popped n s := by
  refine popped_congr (sp_spInc_pushByte v s) fun k hk => ?cell
  case cell => exact memRead_pushByte_ne v s (add_ofNat_ne_sub_one (sp s) (hk.trans_le room))

theorem stackOps_map_some_concat (vs : List Byte) (v : Byte) (s : State) :
    stackOps ((vs ++ [v]).map some) s = pushByte v (stackOps (vs.map some) s) := by
  rw [List.map_append, stackOps_append]
  rfl

theorem popped_stackOps_map_some (vs : List Byte) (s : State) (fits : vs.length ≤ 256) :
    popped vs.length (stackOps (vs.map some) s) = vs.reverse := by
  induction vs using List.reverseRecOn with
  | nil => rfl
  | append_singleton vs v ih =>
    have room : vs.length ≤ 255 := by
      rw [List.length_append, List.length_singleton] at fits
      omega
    rw [stackOps_map_some_concat, List.length_append, List.length_singleton, popped_succ, loadTop_pushByte,
      popped_spInc_pushByte v _ room, ih (by omega), List.reverse_append, List.reverse_singleton, List.singleton_append]

/-- Settles O47, by induction on the pushes, last one first; the pointer comes back by the count of operations. -/
theorem stackLastInFirstOut : Obligations.StackLastInFirstOut := by
  unfold Obligations.StackLastInFirstOut
  refine fun vs s fits => ⟨popped_stackOps_map_some vs s fits, ?pointer⟩
  case pointer =>
    have pushes : (vs.map some ++ List.replicate vs.length none).countP Option.isSome = vs.length := by
      simp [List.countP_map, List.countP_replicate]
    have pops : (vs.map some ++ List.replicate vs.length none).countP Option.isNone = vs.length := by
      simp [List.countP_map, List.countP_replicate]
    rw [sp_stackOps, pushes, pops, BitVec.sub_add_cancel]

/-! ### Two steps -/

theorem run_two {s t u : State} (first : step s = .next t) (second : step t = .next u) : core.run 2 s = .next u := by
  rw [run_succ_of_step 1 first, run_succ_of_step 0 second]
  rfl

/-- Settles O43: the pushed byte is read back at the address of the next opcode. -/
theorem nextFetchSeesStore : Obligations.NextFetchSeesStore := by
  unfold Obligations.NextFetchSeesStore
  intro s a ha running decoded onNext
  refine ⟨_, (step_of_current running decoded).trans (exec_push s ha), running, rfl, ?seen⟩
  case seen =>
    rw [pushByte_rfRead_spDec, ← pushByte_eq_update, fetch_eq, setPc_pc, memRead_setPc, ← onNext]
    exact memRead_pushByte_same _ s

/-- A running machine on an opcode of the spec's table, with the instruction its operand bytes make. -/
theorem current_of_opcode {s : State} (h : Handler) (opcode : memRead s.pc s = opcodes.byteOf h) :
    current s = .ok (h.instr (memRead (s.pc + 1) s) (memRead (s.pc + 2) s)) :=
  decode_of_handlerOf_some (((handlerOf_eq_some_iff (by decide) _ h).mpr opcode.symm)) _ _

theorem step_of_pop {s : State} {q : Byte} (hq : q.toNat < 8) (running : s.ctl = .running)
    (opcode : memRead s.pc s = 0x46) (operand : memRead (s.pc + 1) s = q) :
    step s = .next (setPc (s.pc + 2) (spInc (rfWrite ⟨q.toNat, hq⟩ (loadTop s) s))) := by
  have decoded : current s = .ok (.pop q) := operand ▸ current_of_opcode .pop opcode
  exact (step_of_current running decoded).trans (exec_pop s hq)

theorem step_of_ret {s : State} (running : s.ctl = .running) (opcode : memRead s.pc s = 0x11) :
    step s = .next (spInc (setPc (loadTop s) s)) :=
  (step_of_current running (current_of_opcode .ret opcode)).trans (exec_ret s)

/-- The byte PUSH r stores: `x[r]` after the decrement of `x[7]` (R134). -/
def pushedBy (r : RegIx) (s : State) : Byte := rfRead r (spDec s)

theorem pushedBy_of_ne {r : RegIx} (s : State) (notSp : r ≠ spIndex) : pushedBy r s = s.x[r.val] :=
  rfRead_rfWrite_ne _ _ _ s notSp

/-- PUSH r, then POP q two bytes on, the pushed cell being no byte of the POP: the pushed byte is popped into register
q. -/
theorem run_push_pop {s : State} {r q : Byte} (hr : r.toNat < 8) (hq : q.toNat < 8) (running : s.ctl = .running)
    (decoded : current s = .ok (.push r)) (popOpcode : memRead (s.pc + 2) s = 0x46)
    (popOperand : memRead (s.pc + 3) s = q) (offOpcode : s.x[7] - 1 ≠ s.pc + 2) (offOperand : s.x[7] - 1 ≠ s.pc + 3) :
    core.run 2 s = .next (setPc (s.pc + 4) (spInc (rfWrite ⟨q.toNat, hq⟩ (pushedBy ⟨r.toNat, hr⟩ s)
      (pushByte (pushedBy ⟨r.toNat, hr⟩ s) s)))) := by
  have push := (step_of_current running decoded).trans (exec_push s hr)
  refine run_two push ((step_of_pop hq ?control ?opcode ?operand).trans (congrArg _ ?popped))
  case control => exact running
  case opcode => exact (memRead_pushByte_ne _ s offOpcode.symm).trans popOpcode
  case operand =>
    have operandAt : s.pc + 2 + 1 = s.pc + 3 := BitVec.add_assoc s.pc 2 1
    rw [setPc_pc, operandAt]
    exact (memRead_pushByte_ne _ s offOperand.symm).trans popOperand
  case popped =>
    have endAt : s.pc + 2 + 2 = s.pc + 4 := BitVec.add_assoc s.pc 2 2
    have top (v : Byte) (target : Addr) : loadTop (setPc target (pushByte v s)) = v := loadTop_pushByte v s
    rw [setPc_pc, endAt, top]
    rfl

/-- A push and a pop into a register other than the stack pointer: the pointer is back, the register and the cell below
the pointer are written. -/
theorem spInc_rfWrite_pushByte {q : RegIx} (w v : Byte) (s : State) (notSp : q ≠ spIndex) :
    spInc (rfWrite q w (pushByte v s)) =
      { s with x := s.x.set q.val w, mem := s.mem.write (s.x[7] - 1) v } := by
  have other : q.val ≠ 7 := Fin.val_ne_of_ne notSp
  have pointer : sp (rfWrite q w (pushByte v s)) + 1 = sp s := by
    rw [sp, rfRead_rfWrite_ne _ _ _ _ notSp.symm, ← sp_spInc_pushByte v s, sp_spInc]
    rfl
  have registers : ((s.x.set 7 (s.x[7] - 1)).set q.val w).set 7 s.x[7] = s.x.set q.val w := by
    rw [Vector.set_comm _ _ other, Vector.set_set, Vector.set_getElem_self]
  rw [spInc_eq, pointer, pushByte_eq_update]
  exact congrArg (fun x => { s with x := x, mem := s.mem.write (s.x[7] - 1) v }) registers

theorem rfWrite_rfRead_self (i : RegIx) (s : State) : rfWrite i (rfRead i s) s = s := by
  rw [rfWrite, rfRead_eq, Vector.set_getElem_self]

theorem spInc_pushByte_x (v : Byte) (s : State) : (spInc (pushByte v s)).x = s.x := by
  have registers : (s.x.set 7 (s.x[7] - 1)).set 7 s.x[7] = s.x := by
    rw [Vector.set_set, Vector.set_getElem_self]
  rw [spInc_eq, sp_pushByte, BitVec.sub_add_cancel, pushByte_eq_update]
  exact registers

/-- PUSH r and POP r leave every register, the stack pointer as operand included. -/
theorem spInc_rfWrite_pushedBy_x (r : RegIx) (s : State) :
    (spInc (rfWrite r (pushedBy r s) (pushByte (pushedBy r s) s))).x = s.x := by
  by_cases isSp : r = spIndex
  · subst isSp
    have keeps : rfWrite spIndex (pushedBy spIndex s) (pushByte (pushedBy spIndex s) s) =
        pushByte (pushedBy spIndex s) s := rfWrite_rfRead_self spIndex (pushByte (pushedBy spIndex s) s)
    rw [keeps]
    exact spInc_pushByte_x _ s
  · rw [spInc_rfWrite_pushByte _ _ s isSp, pushedBy_of_ne s isSp]
    exact Vector.set_getElem_self _

/-- Settles O44, from the state after the two steps: for r and q below 7 field by field, and for r = q the registers. -/
theorem stackLaw : Obligations.StackLaw := by
  unfold Obligations.StackLaw
  refine ⟨fun s r q hr hq running decoded popOpcode popOperand offOpcode offOperand => ?copies,
    fun s r hr running decoded popOpcode popOperand offOpcode offOperand => ?restores⟩
  case copies =>
    have notSp {v : Byte} (hv : v.toNat < 7) : (⟨v.toNat, by omega⟩ : RegIx) ≠ spIndex :=
      Fin.ne_of_val_ne (Nat.ne_of_lt hv)
    rw [run_push_pop (by omega) (by omega) running decoded popOpcode popOperand offOpcode offOperand,
      spInc_rfWrite_pushByte _ _ s (notSp hq), pushedBy_of_ne s (notSp hr)]
    rfl
  case restores =>
    exact ⟨_, run_push_pop hr hr running decoded popOpcode popOperand offOpcode offOperand,
      spInc_rfWrite_pushedBy_x _ s, rfl⟩

/-- Settles O45: the push leaves the RETURN byte, so the second step pops the pushed address. -/
theorem callReturnLaw : Obligations.CallReturnLaw := by
  unfold Obligations.CallReturnLaw
  intro s r hr running decoded returnAt offReturn
  have legal : r.toNat < 8 := by omega
  have notSp : (⟨r.toNat, legal⟩ : RegIx) ≠ spIndex := Fin.ne_of_val_ne (Nat.ne_of_lt hr)
  have target : rfRead ⟨r.toNat, legal⟩ (pushByte (s.pc + 2) s) = s.x[r.toNat] := rfRead_rfWrite_ne _ _ _ _ notSp
  have call := (step_of_current running decoded).trans (exec_call s legal)
  rw [target] at call
  have opcode : memRead s.x[r.toNat] (pushByte (s.pc + 2) s) = 0x11 :=
    (memRead_pushByte_ne _ s offReturn.symm).trans returnAt
  exact ⟨_, run_two call (step_of_ret running opcode), running, loadTop_pushByte (s.pc + 2) s,
    spInc_pushByte_x (s.pc + 2) s, rfl⟩

end Sys2Proof.Machine
end

section
/-! Reset (10_state.md R25, 70_reset_and_hazards.md R185): the values it leaves, with and without an image. -/

namespace Sys2Proof.Machine

/-! ### What the loader leaves alone -/

/-- The loader writes memory and nothing else (20_memory.md R44). -/
theorem loadImage_frame (image : List Byte) (s : State) :
    loadImage image s = { s with mem := (loadImage image s).mem } := memWriteList_frame image 0 s

/-- Registers 0 to 6 are `REG_RESET`, register 7 is the reset stack pointer. -/
theorem resetRegs_getElem (regReset : Vector Byte 7) (i : Fin 7) : (resetRegs regReset)[i.val] = regReset[i.val] :=
  Vector.getElem_push_lt i.isLt

theorem resetRegs_spIndex (regReset : Vector Byte 7) : (resetRegs regReset)[7] = 0xF4 :=
  Vector.getElem_push_eq

/-! ### The obligations -/

/-- Settles O48, field by field; every register is read. -/
theorem resetValues : Obligations.ResetValues := by
  unfold Obligations.ResetValues
  exact ⟨memRead_reset, by decide, by decide, rfl, rfl, rfl, rfl, rfl, rfl⟩

/-- Settles O49: the loader puts the image into memory and keeps the other fields of reset. -/
theorem bootLoadsImage : Obligations.BootLoadsImage := by
  unfold Obligations.BootLoadsImage
  refine ⟨fun p image fits => ?loads, fun p image tooLong => if_neg (Nat.not_le.mpr tooLong)⟩
  case loads =>
    have boots : boot p image = .next (loadImage image (resetState p)) := if_pos fits
    refine ⟨_, boots, fun a => ?memory, ?rest⟩
    case memory =>
      rw [memRead_of_boot boots a]
      split
      · next inside => exact List.getD_eq_getElem _ _ inside
      · next outside => exact List.getD_eq_default _ _ (Nat.le_of_not_lt outside)
    case rest =>
      rw [loadImage_frame]
      exact ⟨resetRegs_getElem p.regReset, resetRegs_spIndex p.regReset, rfl, rfl, rfl, rfl, rfl⟩

end Sys2Proof.Machine
end
